-- ==== Sys2Proof/Word.lean ====
section
/-! DEFINITION. The bit-vector types of gridpy CORE, by the spec's widths (00_scope.md R5). -/

namespace Sys2Proof

/-- A host data word or a command word: 32 bits (R5, R42, R60). -/
abbrev Word := BitVec 32

/-- A byte of the sensor's registers, or an 8-bit intensity (R5, R44). -/
abbrev Byte := BitVec 8

/-- A host word address, or a byte address of the sensor space (R40). -/
abbrev Addr := BitVec 8

/-- A raw 12-bit temperature code, 0..4095 (R5 RAW_W, R63). -/
abbrev Raw12 := BitVec 12

/-- A stored temperature: 12 bits, read signed, in quarter degrees (R6, R17). -/
abbrev Cell := BitVec 12

/-- One line block of the pixel array: exactly 16 bytes (R5 LINE_BYTES, R101). -/
abbrev Block := Vector Byte 16

end Sys2Proof
end

