-- ==== Sys2Proof/Syntax.lean ====
section
/-! DEFINITION. The 11 commands (30_encoding.md R64), one constructor per row of the opcode table. Operands have
the widths of R62 and R63, so every term is a command that can be encoded (log entry 18). -/

namespace Sys2Proof

inductive Instr where
  /-- `NOP`, opcode 0x00, format N (R135). -/
  | nop
  /-- `SRST`, opcode 0x01, format N (R136). -/
  | srst
  /-- `DEC12 raw12`, opcode 0x10, format R12 (R85). -/
  | dec12 (raw12 : Raw12)
  /-- `ENC12 imm16`, opcode 0x11, format S16 (R86): the 16-bit field, read signed. -/
  | enc12 (imm16 : BitVec 16)
  /-- `DECPX lo, hi`, opcode 0x12, format B2 (R87): `lo` is the byte of the lower sensor offset. -/
  | decpx (lo hi : Byte)
  /-- `SPLITP raw12`, opcode 0x13, format R12 (R88). -/
  | splitp (raw12 : Raw12)
  /-- `SPLITL raw12`, opcode 0x14, format R12 (R89). -/
  | splitl (raw12 : Raw12)
  /-- `THERM hi, lo`, opcode 0x15, format B2 (R90): operands in the order of the listing syntax (R67). -/
  | therm (hi lo : Byte)
  /-- `ASM`, opcode 0x20, format N (R103). -/
  | asm
  /-- `REMAP`, opcode 0x30, format N (R125). -/
  | remap
  /-- `RMP1 imm16`, opcode 0x31, format S16 (R126): the 16-bit field, read signed. -/
  | rmp1 (imm16 : BitVec 16)
  deriving DecidableEq, Repr

end Sys2Proof
end

