-- ==== Sys2Proof/Decode.lean ====
section
/-! DEFINITION. The command word: fields (R61 to R63), the decoder (R64, R65), total and rejecting by name, and the
encoder, both written from the format tables of 30_encoding.md. -/

namespace Sys2Proof

/-! ### Fields of a command word -/

/-- `opcode = cw[31:24]` (R61). -/
def opcodeField (cw : Word) : Byte := cw.extractLsb' 24 8

/-- Format N's reserved field `cw[23:0]` (R62). -/
def reservedN (cw : Word) : BitVec 24 := cw.extractLsb' 0 24

/-- Format R12's reserved field `cw[23:12]` (R62). -/
def reservedR12 (cw : Word) : BitVec 12 := cw.extractLsb' 12 12

/-- The reserved field `cw[23:16]` of formats S16 and B2 (R62). -/
def reserved16 (cw : Word) : BitVec 8 := cw.extractLsb' 16 8

/-- `raw12 = cw[11:0]` (R63). -/
def raw12Field (cw : Word) : Raw12 := cw.extractLsb' 0 12

/-- The field `cw[15:0]` of format S16 (R62, R63). -/
def imm16Field (cw : Word) : BitVec 16 := cw.extractLsb' 0 16

/-- `hi = cw[15:8]`, the byte at the higher sensor offset (R62, R63). -/
def hiField (cw : Word) : Byte := cw.extractLsb' 8 8

/-- `lo = cw[7:0]`, the byte at the lower sensor offset (R62, R63). -/
def loField (cw : Word) : Byte := cw.extractLsb' 0 8

/-! ### The decoder -/

/-- Why a word is illegal: the two cases of R65. Both have the same effect. -/
inductive Illegal where
  /-- An opcode not in the table. -/
  | unknownOpcode
  /-- A listed opcode with a non-zero reserved bit. -/
  | reservedBits
  deriving DecidableEq, Repr

/-- What the decoder makes of a word. -/
inductive Decoded where
  | instr (i : Instr)
  | illegal (why : Illegal)
  deriving DecidableEq, Repr

/-- Accept the command if its reserved bits are zero ("reserved, must be 0", R62, R65). -/
def ifReservedZero {n : Nat} (reserved : BitVec n) (i : Instr) : Decoded :=
  if reserved = 0 then .instr i else .illegal .reservedBits

/-- The opcode map of R64. The opcode alone selects the command and its format (R61). -/
def decode (cw : Word) : Decoded :=
  if opcodeField cw = 0x00 then ifReservedZero (reservedN cw) .nop
  else if opcodeField cw = 0x01 then ifReservedZero (reservedN cw) .srst
  else if opcodeField cw = 0x10 then ifReservedZero (reservedR12 cw) (.dec12 (raw12Field cw))
  else if opcodeField cw = 0x11 then ifReservedZero (reserved16 cw) (.enc12 (imm16Field cw))
  else if opcodeField cw = 0x12 then ifReservedZero (reserved16 cw) (.decpx (loField cw) (hiField cw))
  else if opcodeField cw = 0x13 then ifReservedZero (reservedR12 cw) (.splitp (raw12Field cw))
  else if opcodeField cw = 0x14 then ifReservedZero (reservedR12 cw) (.splitl (raw12Field cw))
  else if opcodeField cw = 0x15 then ifReservedZero (reserved16 cw) (.therm (hiField cw) (loField cw))
  else if opcodeField cw = 0x20 then ifReservedZero (reservedN cw) .asm
  else if opcodeField cw = 0x30 then ifReservedZero (reservedN cw) .remap
  else if opcodeField cw = 0x31 then ifReservedZero (reserved16 cw) (.rmp1 (imm16Field cw))
  else .illegal .unknownOpcode

/-! ### The encoder -/

/-- Format N: opcode, 24 zero bits (R62). -/
def encodeN (opcode : Byte) : Word := opcode ++ 0#24

/-- Format R12: opcode, 12 zero bits, raw12 (R62). -/
def encodeR12 (opcode : Byte) (raw12 : Raw12) : Word := opcode ++ 0#12 ++ raw12

/-- Format S16: opcode, 8 zero bits, imm16 (R62). -/
def encodeS16 (opcode : Byte) (imm16 : BitVec 16) : Word := opcode ++ 0#8 ++ imm16

/-- Format B2: opcode, 8 zero bits, hi, lo (R62). -/
def encodeB2 (opcode hi lo : Byte) : Word := opcode ++ 0#8 ++ hi ++ lo

/-- The word of a command (R62, R64). -/
def encode : Instr → Word
  | .nop => encodeN 0x00
  | .srst => encodeN 0x01
  | .dec12 raw12 => encodeR12 0x10 raw12
  | .enc12 imm16 => encodeS16 0x11 imm16
  | .decpx lo hi => encodeB2 0x12 hi lo
  | .splitp raw12 => encodeR12 0x13 raw12
  | .splitl raw12 => encodeR12 0x14 raw12
  | .therm hi lo => encodeB2 0x15 hi lo
  | .asm => encodeN 0x20
  | .remap => encodeN 0x30
  | .rmp1 imm16 => encodeS16 0x31 imm16

/-! ### The opcode table -/

/-- A row of R64's table: "a word `cw` is the command of a row when `cw & mask = match`". -/
structure OpcodeRow where
  mnemonic : String
  pattern : Word
  mask : Word
  deriving DecidableEq, Repr

/-- The row of R64's table for a command, `match` and `mask` as the table prints them. -/
def Instr.row : Instr → OpcodeRow
  | .nop => ⟨"NOP", 0x00000000, 0xFFFFFFFF⟩
  | .srst => ⟨"SRST", 0x01000000, 0xFFFFFFFF⟩
  | .dec12 _ => ⟨"DEC12", 0x10000000, 0xFFFFF000⟩
  | .enc12 _ => ⟨"ENC12", 0x11000000, 0xFFFF0000⟩
  | .decpx _ _ => ⟨"DECPX", 0x12000000, 0xFFFF0000⟩
  | .splitp _ => ⟨"SPLITP", 0x13000000, 0xFFFFF000⟩
  | .splitl _ => ⟨"SPLITL", 0x14000000, 0xFFFFF000⟩
  | .therm _ _ => ⟨"THERM", 0x15000000, 0xFFFF0000⟩
  | .asm => ⟨"ASM", 0x20000000, 0xFFFFFFFF⟩
  | .remap => ⟨"REMAP", 0x30000000, 0xFFFFFFFF⟩
  | .rmp1 _ => ⟨"RMP1", 0x31000000, 0xFFFF0000⟩

/-- R64's table, in its order (the operands of the sample terms play no part in a row). -/
def opcodeTable : List OpcodeRow :=
  [Instr.nop.row, Instr.srst.row, (Instr.dec12 0).row, (Instr.enc12 0).row, (Instr.decpx 0 0).row,
   (Instr.splitp 0).row, (Instr.splitl 0).row, (Instr.therm 0 0).row, Instr.asm.row, Instr.remap.row,
   (Instr.rmp1 0).row]

/-- `cw & mask = match` (R64). -/
def OpcodeRow.accepts (r : OpcodeRow) (cw : Word) : Bool := cw &&& r.mask == r.pattern

/-! ### The host's entry -/

/-- The command this decoder reads from a word of `nbits` bits `w`, bit 0 the least significant (a command has
32 bits and no others, R60; log entry 17). -/
def decodeTableWord (nbits w : Nat) : Option Instr :=
  if nbits ≤ 32 then
    match decode (BitVec.ofNat 32 (w % 2 ^ nbits)) with
    | .instr i => some i
    | .illegal _ => none
  else none

end Sys2Proof
end

