-- ==== Sys2Proof/Config.lean ====
section
/-! DEFINITION. What is fixed for the machine (the parameters of 00_scope.md R5 that are values) and the one
free value: the transport's replies (R46, U5, U6). -/

namespace Sys2Proof

/-- What becomes of one line-read request (R46). The first two are the transport's answers; the third is the
case of R176: the transport never answers. -/
inductive LineReply where
  /-- `Bytes(b)`: a finite byte sequence of any length, the empty one included. -/
  | bytes (b : List Byte)
  /-- `TransportError`, opaque. -/
  | transportError
  /-- No answer, ever (R176; possible unless the open parameter `transport_answers` rules it out, D34). -/
  | silent
  deriving DecidableEq, Repr, Inhabited

namespace Config

/-- PIXEL_BASE: the sensor address of the pixel array (R5, R44). -/
def pixelBase : Nat := 0x80

/-- LINE_BYTES: the bytes of one line block (R5). -/
def lineBytes : Nat := 16

/-- The default target range (0, 255), low end (R5, R25). -/
def resetTgtLo : Byte := 0

/-- The default target range (0, 255), high end (R5, R25). -/
def resetTgtHi : Byte := 255

/-- THE FREE VALUE of this model (U6 "any value"; log entry 5): the transport's reply to the request number `n`,
counting every request the core has ever issued from 0, wherever the state does not give the reply as data. It
has no body on purpose: a claim holds whatever the transport answers. -/
opaque transportReply : Nat → LineReply

/-- The open parameter `transport_answers` of R5 and D34, as a proposition about the free value: every request is
answered. No definition assumes it; a claim that needs it says so. -/
def TransportAnswers : Prop := ∀ n, transportReply n ≠ .silent

end Config
end Sys2Proof
end

