-- ==== Sys2Proof/Machine/State.lean ====
section
/-! DEFINITION. The state: the elements of 10_state.md R10 (`Regs`), and the traffic of the two ports held as data
(`HostPort`, `LinePort`), so that one step is a function of the state. Reset values: R25. -/

namespace Sys2Proof.Machine

/-- The outcomes of a command (R150), the values STATUS.ERR takes: "Codes 8 to 15 are never produced" (R12). -/
inductive ErrCode where
  | ok
  | domainError
  | shortReadError
  | lengthError
  | degenerateRangeError
  | transportError
  | illegalCommand
  | noFrame
  deriving DecidableEq, Repr

/-- RES0 and RES1 (R14): written together, covered by one flag. -/
structure Results where
  res0 : Word
  res1 : Word
  deriving DecidableEq, Repr

/-- FRAME, MINV, MINP, MAXV, MAXP (R17, R18): "written only by a successful `ASM`, together", covered by one flag.
Cell n = 8*row + column; a position has its column in bits 2:0 and its row in bits 5:3. -/
structure Frame where
  cells : Vector Cell 64
  minv : Cell
  minp : BitVec 6
  maxv : Cell
  maxp : BitVec 6
  deriving DecidableEq, Repr

/-- The whole state of the core (R10). An element that may hold no value (R23) is an Option, and the flag that R12
defines as "holds a value" is its tag: RV of `res`, FV of `frame`, GV of `gray` (log entry 7). -/
structure Regs where
  /-- STATUS.ERR (R12). -/
  err : ErrCode
  /-- SAT (R12, R122). -/
  sat : Bool
  /-- CTRL.SRCSEL (R13). -/
  srcsel : Bool
  /-- SRC_LO (R15), signed quarter degrees. -/
  srcLo : BitVec 16
  /-- SRC_HI (R15), signed quarter degrees. -/
  srcHi : BitVec 16
  /-- TGT_LO (R16), unsigned. -/
  tgtLo : Byte
  /-- TGT_HI (R16), unsigned. -/
  tgtHi : Byte
  /-- RES0, RES1 and RV (R14). -/
  res : Option Results
  /-- FRAME, MINV, MINP, MAXV, MAXP and FV (R17, R18). -/
  frame : Option Frame
  /-- GRAY[0..63] and GV (R19), cell n = 8*row + column. -/
  gray : Option (Vector Byte 64)
  deriving DecidableEq, Repr

/-- The reset value of every element (R25). -/
def Regs.reset : Regs where
  err := .ok
  sat := false
  srcsel := false
  srcLo := 0
  srcHi := 0
  tgtLo := Config.resetTgtLo
  tgtHi := Config.resetTgtHi
  res := none
  frame := none
  gray := none

/-- The mapped locations of the host register space (R41), by name. -/
inductive Loc where
  | cmd
  | status
  | ctrl
  | res0
  | res1
  | srcLo
  | srcHi
  | tgtLo
  | tgtHi
  | minv
  | minp
  | maxv
  | maxp
  | frame (n : Fin 64)
  | gray (n : Fin 64)
  deriving DecidableEq, Repr

/-- The access column of R41. -/
inductive Access where
  | readOnly
  | writeOnly
  | readWrite
  deriving DecidableEq, Repr

/-- The causes of a bus error (R42). -/
inductive BusCause where
  | unmapped
  | accessDenied
  | noValue
  deriving DecidableEq, Repr

/-- The response of the host port (R42): `Ok(data)` to a read, `Ok` to a write, or `BusError(cause)`. -/
inductive Response where
  | okData (data : Word)
  | ok
  | busError (cause : BusCause)
  deriving DecidableEq, Repr

/-- An input to the core: a host transaction (R42), or the platform's hardware reset (R170; log entry 11). -/
inductive Input where
  | read (addr : Addr)
  | write (addr : Addr) (data : Word)
  | hardReset
  deriving DecidableEq, Repr

/-- A line-read request as the core presents it (R46). -/
structure LineRequest where
  lineIndex : Nat
  addr : Addr
  length : Nat
  deriving DecidableEq, Repr

/-- The host port's traffic (the model's own fields; log entries 1 and 3). -/
structure HostPort where
  /-- The inputs not yet taken, oldest first. -/
  pending : List Input
  /-- The responses given so far, oldest first. -/
  responses : List Response
  deriving DecidableEq, Repr

/-- The line-read port: its traffic (the model's own fields; log entries 4 and 5), and whether the core waits there
for good (R176). -/
structure LinePort where
  /-- The transport's next replies, oldest first, where they are given as data; past its end the reply is the free
  value `Config.transportReply`. -/
  given : List LineReply
  /-- The requests issued so far, oldest first: the request trace (R108). -/
  requests : List LineRequest
  /-- The stuck state of R176: the line whose read `ASM` has issued and which the transport never answers. Then "the
  core takes no further host transaction" and "only a hardware reset ends this" (log entry 6). -/
  waiting : Option Nat
  deriving DecidableEq, Repr

/-- The machine: the core's elements and its two ports. -/
structure State where
  regs : Regs
  host : HostPort
  line : LinePort
  deriving DecidableEq, Repr

/-- Right after reset (R25, R170): every element at its reset value; nothing has passed through the ports, no reply
of the transport is given as data, and the core waits for no answer (log entry 13). -/
def State.reset : State where
  regs := Regs.reset
  host := ⟨[], []⟩
  line := ⟨[], [], none⟩

/-- Why the machine stops: it never does. Error outcomes and bus errors are next states (R153, R159), and the stuck
state of R176 is a state. No constructor, so nothing raises one, which is safe. -/
inductive Fault where
  deriving DecidableEq, Repr

/-- Why an instruction has no meaning here. -/
inductive Refusal where
  /-- Raised by an arm of `exec` whose instruction has no meaning yet. Safe: nothing is claimed of it. No arm
  raises it in this model. -/
  | notModelled (mnemonic : String)
  deriving DecidableEq, Repr

end Sys2Proof.Machine
end

