-- ==== Sys2Proof/Machine/Flags.lean ====
section
/-! DEFINITION. STATUS and its flags (10_state.md R12, R21) and the outcome codes (60_exceptions.md R150). -/

namespace Sys2Proof.Machine

/-- The code of an outcome in STATUS.ERR (R12, R150). -/
def ErrCode.code : ErrCode → BitVec 4
  | .ok => 0
  | .domainError => 1
  | .shortReadError => 2
  | .lengthError => 3
  | .degenerateRangeError => 4
  | .transportError => 5
  | .illegalCommand => 6
  | .noFrame => 7

/-- RV: "RES0 and RES1 hold a value" (R12). -/
def Regs.rv (r : Regs) : Bool := r.res.isSome

/-- FV: "FRAME[0..63], MINV, MINP, MAXV, MAXP hold a value" (R12). -/
def Regs.fv (r : Regs) : Bool := r.frame.isSome

/-- GV: "GRAY[0..63] holds a value" (R12). -/
def Regs.gv (r : Regs) : Bool := r.gray.isSome

/-- STATUS (R12): bits 3:0 ERR, 4 RV, 5 FV, 6 GV, 7 SAT, 31:8 read as 0. -/
def Regs.statusWord (r : Regs) : Word :=
  0#24 ++ BitVec.ofBool r.sat ++ BitVec.ofBool r.gv ++ BitVec.ofBool r.fv ++ BitVec.ofBool r.rv ++ r.err.code

end Sys2Proof.Machine
end

