-- ==== Sys2Proof/Machine/Operands.lean ====
section
/-! DEFINITION. Operand values and the width conversions of 00_scope.md R7. -/

namespace Sys2Proof.Machine

/-- `sext_N(v)`: the 32-bit word `v mod 2^32` of an integer that fits N-bit two's complement (R7). -/
def sext (v : Int) : Word := BitVec.ofInt 32 v

/-- `zext_N(v)`: the 32-bit word of an unsigned integer (R7). -/
def zext (v : Nat) : Word := BitVec.ofNat 32 v

/-- `imm16 = signed_16(cw[15:0])`, "not scaled, not shifted" (R63). -/
def immValue (imm16 : BitVec 16) : Int := imm16.toInt

/-- The signed integer a 12-bit cell holds, in quarter degrees (R6, R17). -/
def cellValue (c : Cell) : Int := c.toInt

/-- The 12-bit cell of a quarter-degree integer in −2048..2047 (R17). -/
def cellOf (q : Int) : Cell := BitVec.ofInt 12 q

/-- The signed 16-bit integer of SRC_LO or SRC_HI (R15). -/
def srcValue (r : BitVec 16) : Int := r.toInt

/-- The unsigned 8-bit integer of TGT_LO or TGT_HI (R16). -/
def tgtValue (r : Byte) : Int := r.toNat

end Sys2Proof.Machine
end

