-- ==== Sys2Proof/Machine/Ops.lean ====
section
/-! DEFINITION. The shared operations: completing a command (60_exceptions.md R157), reset (R170), the host register
map (20_memory.md R41, R42) and the line-read primitive (R46). -/

namespace Sys2Proof.Machine

/-! ### Completion of a command (R157) -/

/-- The destinations of a command that can fail (R157). -/
inductive Dest where
  /-- RES0, RES1 (flag RV): the codec commands. -/
  | codec
  /-- RES0, RES1 (flag RV), and SAT: `RMP1`. -/
  | rmp1
  /-- FRAME, MINV, MINP, MAXV, MAXP (flag FV): `ASM`. -/
  | frame
  /-- GRAY (flag GV), and SAT: `REMAP`. -/
  | gray
  deriving DecidableEq, Repr

/-- Ending a command with an error outcome, the machine's one form of exception (R157): "destinations <- none ;
valid flag of the destinations <- 0 ; SAT <- 0 if the command is REMAP or RMP1 ; ERR <- code". Nothing is saved,
nothing is vectored, there is nothing to return from (R159). -/
def Regs.raise (r : Regs) (d : Dest) (e : ErrCode) : Regs :=
  match d with
  | .codec => { r with res := none, err := e }
  | .rmp1 => { r with res := none, sat := false, err := e }
  | .frame => { r with frame := none, err := e }
  | .gray => { r with gray := none, sat := false, err := e }

/-- `raise <Outcome>` (R7) on the machine: only the core's elements change. -/
def State.raise (s : State) (d : Dest) (e : ErrCode) : State := { s with regs := s.regs.raise d e }

/-- IllegalCommand: "exactly one effect: `STATUS.ERR <- 6`" (R65, R157). -/
def State.raiseIllegal (s : State) : State := { s with regs := { s.regs with err := .illegalCommand } }

/-- A command with no destination ends OK (R135). -/
def State.completeNone (s : State) : State := { s with regs := { s.regs with err := .ok } }

/-- A codec command ends OK: RES0, RES1 written, RV <- 1, ERR <- 0 (R157). -/
def State.completeCodec (s : State) (res0 res1 : Word) : State :=
  { s with regs := { s.regs with res := some ⟨res0, res1⟩, err := .ok } }

/-- `RMP1` ends OK: RES0, RES1 and SAT written, RV <- 1, ERR <- 0 (R126). -/
def State.completeRmp1 (s : State) (res0 res1 : Word) (sat : Bool) : State :=
  { s with regs := { s.regs with res := some ⟨res0, res1⟩, sat := sat, err := .ok } }

/-- `ASM` ends OK: FRAME, MINV, MINP, MAXV, MAXP written together, FV <- 1, ERR <- 0 (R103, R107). -/
def State.completeFrame (s : State) (f : Frame) : State :=
  { s with regs := { s.regs with frame := some f, err := .ok } }

/-- `REMAP` ends OK: GRAY and SAT written, GV <- 1, ERR <- 0 (R125). -/
def State.completeGray (s : State) (g : Vector Byte 64) (sat : Bool) : State :=
  { s with regs := { s.regs with gray := some g, sat := sat, err := .ok } }

/-! ### Reset -/

/-- The effect of `SRST` (R136): every state element gets its reset value; the ports and the sensor are not touched
(R171). -/
def State.resetRegs (s : State) : State := { s with regs := Regs.reset }

/-! ### The host register space (R41, R42) -/

/-- The address column of R41. -/
def Loc.addr : Loc → Addr
  | .cmd => 0x00
  | .status => 0x01
  | .ctrl => 0x02
  | .res0 => 0x03
  | .res1 => 0x04
  | .srcLo => 0x05
  | .srcHi => 0x06
  | .tgtLo => 0x07
  | .tgtHi => 0x08
  | .minv => 0x09
  | .minp => 0x0A
  | .maxv => 0x0B
  | .maxp => 0x0C
  | .frame n => BitVec.ofNat 8 (0x40 + n.val)
  | .gray n => BitVec.ofNat 8 (0x80 + n.val)

/-- The location an address names (R41); none where it is unmapped (0x0D to 0x3F and 0xC0 to 0xFF). -/
def locate (a : Addr) : Option Loc :=
  if a = 0x00 then some .cmd
  else if a = 0x01 then some .status
  else if a = 0x02 then some .ctrl
  else if a = 0x03 then some .res0
  else if a = 0x04 then some .res1
  else if a = 0x05 then some .srcLo
  else if a = 0x06 then some .srcHi
  else if a = 0x07 then some .tgtLo
  else if a = 0x08 then some .tgtHi
  else if a = 0x09 then some .minv
  else if a = 0x0A then some .minp
  else if a = 0x0B then some .maxv
  else if a = 0x0C then some .maxp
  else if h : 0x40 ≤ a.toNat ∧ a.toNat ≤ 0x7F then some (.frame ⟨a.toNat - 0x40, by omega⟩)
  else if h : 0x80 ≤ a.toNat ∧ a.toNat ≤ 0xBF then some (.gray ⟨a.toNat - 0x80, by omega⟩)
  else none

/-- The access column of R41. -/
def Loc.access : Loc → Access
  | .cmd => .writeOnly
  | .status => .readOnly
  | .ctrl => .readWrite
  | .res0 => .readOnly
  | .res1 => .readOnly
  | .srcLo => .readWrite
  | .srcHi => .readWrite
  | .tgtLo => .readWrite
  | .tgtHi => .readWrite
  | .minv => .readOnly
  | .minp => .readOnly
  | .maxv => .readOnly
  | .maxp => .readOnly
  | .frame _ => .readOnly
  | .gray _ => .readOnly

/-- The column "read returns" of R41; none where the element holds no value (R23). CMD is no element and has none. -/
def Regs.valueAt (r : Regs) : Loc → Option Word
  | .cmd => none
  | .status => some r.statusWord
  | .ctrl => some (zext r.srcsel.toNat)
  | .res0 => r.res.map fun v => v.res0
  | .res1 => r.res.map fun v => v.res1
  | .srcLo => some (sext (srcValue r.srcLo))
  | .srcHi => some (sext (srcValue r.srcHi))
  | .tgtLo => some (zext r.tgtLo.toNat)
  | .tgtHi => some (zext r.tgtHi.toNat)
  | .minv => r.frame.map fun f => sext (cellValue f.minv)
  | .minp => r.frame.map fun f => zext f.minp.toNat
  | .maxv => r.frame.map fun f => sext (cellValue f.maxv)
  | .maxp => r.frame.map fun f => zext f.maxp.toNat
  | .frame n => r.frame.map fun f => sext (cellValue f.cells[n])
  | .gray n => r.gray.map fun g => zext g[n].toNat

/-- `HostRead(addr)` (R42, R137): the causes tested in the order Unmapped, AccessDenied, NoValue. -/
def Regs.hostRead (r : Regs) (a : Addr) : Response :=
  match locate a with
  | none => .busError .unmapped
  | some l =>
    match l.access with
    | .writeOnly => .busError .accessDenied
    | .readOnly | .readWrite =>
      match r.valueAt l with
      | none => .busError .noValue
      | some v => .okData v

/-- A write to a control register (R13, R15, R16, R138): the low bits of the data are stored, the rest ignored; no
other location has a control write. -/
def Regs.writeControl (r : Regs) (l : Loc) (data : Word) : Regs :=
  match l with
  | .ctrl => { r with srcsel := data.getLsbD 0 }
  | .srcLo => { r with srcLo := data.extractLsb' 0 16 }
  | .srcHi => { r with srcHi := data.extractLsb' 0 16 }
  | .tgtLo => { r with tgtLo := data.extractLsb' 0 8 }
  | .tgtHi => { r with tgtHi := data.extractLsb' 0 8 }
  | .cmd => r
  | .status => r
  | .res0 => r
  | .res1 => r
  | .minv => r
  | .minp => r
  | .maxv => r
  | .maxp => r
  | .frame _ => r
  | .gray _ => r

/-- A control write on the machine (R43: it "changes that register only"). -/
def State.writeControl (s : State) (l : Loc) (data : Word) : State :=
  { s with regs := s.regs.writeControl l data }

/-- The port answers the transaction (R42). -/
def State.respond (s : State) (r : Response) : State :=
  { s with host := { s.host with responses := s.host.responses ++ [r] } }

/-- The rest of the inputs once the oldest is taken (R51). -/
def State.withPending (s : State) (inputs : List Input) : State :=
  { s with host := { s.host with pending := inputs } }

/-! ### The line-read primitive (R46) -/

/-- The reply the transport will give to the request `k` requests from now: given as data, or else the free value
for that request's number (log entry 5). -/
def LinePort.upcoming (p : LinePort) (k : Nat) : LineReply :=
  match p.given[k]? with
  | some reply => reply
  | none => Config.transportReply (p.requests.length + k)

/-- The request of `MemRead(addr, n)`: `(lineIndex = (addr - 0x80) / 16, addr, n)` (R46). -/
def memRequest (addr : Nat) (n : Nat) : LineRequest where
  lineIndex := (addr - Config.pixelBase) / Config.lineBytes
  addr := BitVec.ofNat 8 addr
  length := n

/-- The request of `LineRead(i)` = `MemRead(0x80 + 16*i, 16)` (R7, R45). -/
def lineRequest (i : Nat) : LineRequest := memRequest (Config.pixelBase + 16 * i) Config.lineBytes

/-- The port after one request has been issued and its reply taken. -/
def LinePort.afterRequest (p : LinePort) (q : LineRequest) : LinePort :=
  { p with given := p.given.tail, requests := p.requests ++ [q] }

/-- The core waits for the answer to the read of `line`, which never comes (R176): `ASM` has not ended, so nothing is
written. -/
def State.waitForLine (s : State) (line : Nat) : State := { s with line := { s.line with waiting := some line } }

/-- The port with no answer waited for. -/
def LinePort.endWait (p : LinePort) : LinePort := { p with waiting := none }

/-- The effect of the platform's hardware reset (R170): that of `SRST`, and it ends the stuck state (R176). -/
def State.hardReset (s : State) : State := { s.resetRegs with line := s.line.endWait }

end Sys2Proof.Machine
end

