-- ==== Sys2Proof/Machine/Codec.lean ====
section
/-! DEFINITION. The fixed-point codec (41_codec.md): its functions (R80 to R84) and the meanings of `DEC12`, `ENC12`,
`DECPX`, `SPLITP`, `SPLITL`, `THERM` (R85 to R90). -/

namespace Sys2Proof.Machine

/-! ### Functions -/

/-- `decode12(raw)` (R80): `raw` if bit 11 is clear, `raw - 4096` if it is set. -/
def decode12 (raw : Raw12) : Int :=
  if raw.toNat < 2048 then raw.toNat else (raw.toNat : Int) - 4096

/-- `encode12(v)` (R81); none is `raise DomainError`. -/
def encode12 (v : Int) : Option Raw12 :=
  if v < -2048 ∨ v > 2047 then none
  else if 0 ≤ v then some (BitVec.ofInt 12 v)
  else some (BitVec.ofInt 12 (v + 4096))

/-- `joinPixel(lo, hi) = ((hi & 0x0F) << 8) | lo` (R82). -/
def joinPixel (lo hi : Byte) : Raw12 :=
  ((hi &&& 0x0F).setWidth 12 <<< 8) ||| lo.setWidth 12

/-- `splitPixel(raw)`: high = `raw >> 8`, low = `raw & 0xFF` (R82). The pair is (high, low). -/
def splitPixel (raw : Raw12) : Byte × Byte :=
  ((raw >>> 8).setWidth 8, (raw &&& 0xFF).setWidth 8)

/-- `splitLimit(raw)`: high = `raw >> 9`, low = `raw & 0x7F` (R83), lossy as the spec rules (U1). The pair is
(high, low). -/
def splitLimit (raw : Raw12) : Byte × Byte :=
  ((raw >>> 9).setWidth 8, (raw &&& 0x7F).setWidth 8)

/-- `thermCombine(hi, lo) = (hi << 6) + (lo >> 2)` (R84). -/
def thermCombine (hi lo : Byte) : Nat := hi.toNat * 64 + lo.toNat / 4

/-- `decodeTherm(hi, lo)` (R84); none is `raise DomainError`. -/
def decodeTherm (hi lo : Byte) : Option Int :=
  if hi.toNat ≥ 0x10 then none
  else if thermCombine hi lo < 512 then some (thermCombine hi lo)
  else some ((thermCombine hi lo : Int) - 1024)

/-! ### Commands -/

/-- `DEC12 raw12` (R85). -/
def execDec12 (raw12 : Raw12) (s : State) : Host.Outcome State Fault Refusal :=
  .next (s.completeCodec (sext (decode12 raw12)) 0)

/-- `ENC12 imm16` (R86). -/
def execEnc12 (imm16 : BitVec 16) (s : State) : Host.Outcome State Fault Refusal :=
  match encode12 (immValue imm16) with
  | none => .next (s.raise .codec .domainError)
  | some raw => .next (s.completeCodec (zext raw.toNat) 0)

/-- `DECPX lo, hi` (R87). -/
def execDecpx (lo hi : Byte) (s : State) : Host.Outcome State Fault Refusal :=
  .next (s.completeCodec (sext (decode12 (joinPixel lo hi))) (zext (joinPixel lo hi).toNat))

/-- `SPLITP raw12` (R88): RES0 the byte for the lower sensor offset, RES1 the byte for the higher. -/
def execSplitp (raw12 : Raw12) (s : State) : Host.Outcome State Fault Refusal :=
  .next (s.completeCodec (zext (splitPixel raw12).2.toNat) (zext (splitPixel raw12).1.toNat))

/-- `SPLITL raw12` (R89): RES0 the byte for the lower sensor offset, RES1 the byte for the higher. -/
def execSplitl (raw12 : Raw12) (s : State) : Host.Outcome State Fault Refusal :=
  .next (s.completeCodec (zext (splitLimit raw12).2.toNat) (zext (splitLimit raw12).1.toNat))

/-- `THERM hi, lo` (R90). -/
def execTherm (hi lo : Byte) (s : State) : Host.Outcome State Fault Refusal :=
  match decodeTherm hi lo with
  | none => .next (s.raise .codec .domainError)
  | some q => .next (s.completeCodec (sext q) (zext (thermCombine hi lo)))

end Sys2Proof.Machine
end

