-- ==== Sys2Proof/Machine/FrameAssembler.lean ====
section
/-! DEFINITION. The frame assembler (42_frame.md): the register-block unpacker (R101), the min/max tracker (R102),
the line reads (R103 to R108) and the meaning of `ASM`. -/

namespace Sys2Proof.Machine

/-! ### The unpacker -/

/-- `unpackLine(b)` (R101): pixel k from the bytes `b[2k]` (low) and `b[2k+1]` (high). -/
def unpackLine (b : Block) : Vector Cell 8 :=
  Vector.ofFn fun k : Fin 8 => cellOf (decode12 (joinPixel b[2 * k.val] b[2 * k.val + 1]))

/-- The matrix W (R103): `W[8*i + k]` is pixel k of line i. -/
def matrixOf (lines : Vector Block 8) : Vector Cell 64 :=
  Vector.ofFn fun n : Fin 64 => (unpackLine lines[n.val / 8])[n.val % 8]

/-! ### The min/max tracker -/

/-- A triple (value, column, row) (R100, R102). -/
structure Extremum where
  value : Cell
  column : BitVec 3
  row : BitVec 3
  deriving DecidableEq, Repr

/-- The running pair `mn`, `mx` (R102). -/
structure Extrema where
  mn : Extremum
  mx : Extremum
  deriving DecidableEq, Repr

/-- The triple of the pixel with cell index `n = 8*row + column`. -/
def extremumAt (q : Cell) (n : Fin 64) : Extremum where
  value := q
  column := BitVec.ofNat 3 (n.val % 8)
  row := BitVec.ofNat 3 (n.val / 8)

/-- `track` of the first pixel, at column 0, row 0 (R102). -/
def trackFirst (q : Cell) : Extrema where
  mn := extremumAt q 0
  mx := extremumAt q 0

/-- `track` of a later pixel (R102): strict comparisons on the signed integers, so the first in scan order wins. -/
def Extrema.track (t : Extrema) (q : Cell) (n : Fin 64) : Extrema where
  mn := if cellValue q < cellValue t.mn.value then extremumAt q n else t.mn
  mx := if cellValue q > cellValue t.mx.value then extremumAt q n else t.mx

/-- The tracker after all 64 pixels, presented in scan order (R102). -/
def scanExtrema (w : Vector Cell 64) : Extrema :=
  (List.finRange 64).tail.foldl (fun t n => t.track w[n] n) (trackFirst w[0])

/-- `8*row + column` as a 6-bit position (R18, R103): column in bits 2:0, row in bits 5:3. -/
def Extremum.position (e : Extremum) : BitVec 6 := e.row ++ e.column

/-- What a successful `ASM` copies from the working state (R103). -/
def assembleFrame (lines : Vector Block 8) : Frame where
  cells := matrixOf lines
  minv := (scanExtrema (matrixOf lines)).mn.value
  minp := (scanExtrema (matrixOf lines)).mn.position
  maxv := (scanExtrema (matrixOf lines)).mx.value
  maxp := (scanExtrema (matrixOf lines)).mx.position

/-! ### The line reads -/

/-- What one reply is to `ASM` (R103 to R106). -/
inductive LineResult where
  /-- Exactly 16 bytes. -/
  | block (b : Block)
  /-- An error outcome. -/
  | failed (e : ErrCode)
  /-- Never answered (R176). -/
  | unanswered
  deriving DecidableEq, Repr

/-- The tests of R103, in its order. -/
def lineResult (r : LineReply) : LineResult :=
  match r with
  | .silent => .unanswered
  | .transportError => .failed .transportError
  | .bytes b =>
    if hs : b.length < 16 then .failed .shortReadError
    else if hl : b.length > 16 then .failed .lengthError
    else .block ⟨b.toArray, by simp; omega⟩

/-- How the reads of the lines 0..n−1 end. -/
inductive LinesResult (n : Nat) where
  /-- All n lines answered with 16 bytes. -/
  | blocks (lines : Vector Block n)
  /-- A line failed; no later line was read (R107). -/
  | failed (e : ErrCode)
  /-- The read of line `line` is never answered (R176). -/
  | unanswered (line : Nat)
  deriving DecidableEq, Repr

/-- Read the lines 0, 1, ..., n−1 in this order, each after the answer to the one before, stopping at the first
that fails (R52, R103, R107, R108). -/
def readLines : (n : Nat) → LinePort → LinesResult n × LinePort
  | 0, p => (.blocks #v[], p)
  | n + 1, p =>
    match readLines n p with
    | (.failed e, p') => (.failed e, p')
    | (.unanswered l, p') => (.unanswered l, p')
    | (.blocks lines, p') =>
      match lineResult (p'.upcoming 0) with
      | .failed e => (.failed e, p'.afterRequest (lineRequest n))
      | .unanswered => (.unanswered n, p'.afterRequest (lineRequest n))
      | .block b => (.blocks (lines.push b), p'.afterRequest (lineRequest n))

/-! ### The command -/

/-- `ASM` (R103): on success the frame is written all at once; on an error outcome it holds no value (R107); if a
line read is never answered the command does not end, and the core is stuck (R176). -/
def execAsm (s : State) : Host.Outcome State Fault Refusal :=
  match readLines 8 s.line with
  | (.blocks lines, p) => .next (State.completeFrame { s with line := p } (assembleFrame lines))
  | (.failed e, p) => .next (State.raise { s with line := p } .frame e)
  | (.unanswered l, p) => .next (State.waitForLine { s with line := p } l)

end Sys2Proof.Machine
end

