-- ==== Sys2Proof/Machine/Remapper.lean ====
section
/-! DEFINITION. The grayscale remapper (43_remap.md): the map (R120 to R122), the ranges (R123, R124) and the meanings
of `REMAP` (R125) and `RMP1` (R126). All arithmetic is on mathematical integers (R128). -/

namespace Sys2Proof.Machine

/-- The source and target range of one command (R123). -/
structure Ranges where
  sl : Int
  sh : Int
  tl : Int
  th : Int
  deriving DecidableEq, Repr

/-- `D = sh - sl` (R120). -/
def Ranges.den (g : Ranges) : Int := g.sh - g.sl

/-- `N = tl * D + (v - sl) * (th - tl)` (R120). -/
def Ranges.num (g : Ranges) (v : Int) : Int := g.tl * g.den + (v - g.sl) * (g.th - g.tl)

/-- `t(v) = tdiv(N, D)`, the exact quotient truncated toward zero (R121, R7). -/
def Ranges.truncated (g : Ranges) (v : Int) : Int := (g.num v).tdiv g.den

/-- The output y of `remap1` (R122): saturated to 0..255. -/
def Ranges.intensity (g : Ranges) (v : Int) : Byte :=
  if g.truncated v < 0 then 0
  else if g.truncated v > 255 then 255
  else BitVec.ofInt 8 (g.truncated v)

/-- The clamp flag c of `remap1` (R122). -/
def Ranges.clamps (g : Ranges) (v : Int) : Bool :=
  decide (g.truncated v < 0 ∨ g.truncated v > 255)

/-- The ranges selected by SRCSEL (R123): none if the frame's own range is selected and there is no frame. -/
def Regs.ranges (r : Regs) : Option Ranges :=
  match r.srcsel, r.frame with
  | true, _ => some ⟨srcValue r.srcLo, srcValue r.srcHi, tgtValue r.tgtLo, tgtValue r.tgtHi⟩
  | false, some f => some ⟨cellValue f.minv, cellValue f.maxv, tgtValue r.tgtLo, tgtValue r.tgtHi⟩
  | false, none => none

/-- GRAY of a frame under given ranges: 64 independent applications of `remap1` (R125, R127). -/
def grayOf (g : Ranges) (f : Frame) : Vector Byte 64 :=
  Vector.ofFn fun n : Fin 64 => g.intensity (cellValue f.cells[n])

/-- `c[0] | c[1] | ... | c[63]` (R125). -/
def anyClamps (g : Ranges) (f : Frame) : Bool :=
  (List.finRange 64).any fun n => g.clamps (cellValue f.cells[n])

/-- `REMAP` (R125): NoFrame is tested first, then the degenerate range (R156). -/
def execRemap (s : State) : Host.Outcome State Fault Refusal :=
  match s.regs.frame, s.regs.ranges with
  | some f, some g =>
    if g.sl = g.sh then .next (s.raise .gray .degenerateRangeError)
    else .next (s.completeGray (grayOf g f) (anyClamps g f))
  | _, _ => .next (s.raise .gray .noFrame)

/-- `RMP1 imm16` (R126): RES0 the clamped value, RES1 the truncated value before clamping. -/
def execRmp1 (imm16 : BitVec 16) (s : State) : Host.Outcome State Fault Refusal :=
  match s.regs.ranges with
  | none => .next (s.raise .rmp1 .noFrame)
  | some g =>
    if g.sl = g.sh then .next (s.raise .rmp1 .degenerateRangeError)
    else .next (s.completeRmp1 (zext (g.intensity (immValue imm16)).toNat)
      (sext (g.truncated (immValue imm16))) (g.clamps (immValue imm16)))

end Sys2Proof.Machine
end

