-- ==== Sys2Proof/Machine/System.lean ====
section
/-! DEFINITION. The system commands (44_system.md): `NOP` (R135) and `SRST` (R136). -/

namespace Sys2Proof.Machine

/-- `NOP` (R135): "changes nothing but ERR, which it sets to OK". -/
def execNop (s : State) : Host.Outcome State Fault Refusal := .next s.completeNone

/-- `SRST` (R136): every state element gets its reset value; no line read, nothing sent to the sensor. -/
def execSrst (s : State) : Host.Outcome State Fault Refusal := .next s.resetRegs

end Sys2Proof.Machine
end

