-- ==== Sys2Proof/Machine/Dispatch.lean ====
section
/-! DEFINITION. One arm per command (30_encoding.md R64). -/

namespace Sys2Proof.Machine

def exec (i : Instr) (s : State) : Host.Outcome State Fault Refusal :=
  match i with
  | .nop => Sys2Proof.Machine.execNop s
  | .srst => Sys2Proof.Machine.execSrst s
  | .dec12 raw12 => Sys2Proof.Machine.execDec12 raw12 s
  | .enc12 imm16 => Sys2Proof.Machine.execEnc12 imm16 s
  | .decpx lo hi => Sys2Proof.Machine.execDecpx lo hi s
  | .splitp raw12 => Sys2Proof.Machine.execSplitp raw12 s
  | .splitl raw12 => Sys2Proof.Machine.execSplitl raw12 s
  | .therm hi lo => Sys2Proof.Machine.execTherm hi lo s
  | .asm => Sys2Proof.Machine.execAsm s
  | .remap => Sys2Proof.Machine.execRemap s
  | .rmp1 imm16 => Sys2Proof.Machine.execRmp1 imm16 s

end Sys2Proof.Machine
end

