-- ==== Sys2Proof/Machine/HostPort.lean ====
section
/-! DEFINITION. Serving one input of the host port (20_memory.md R42, 44_system.md R137 to R139): a register read, a
register write, a command word, or the platform's reset. -/

namespace Sys2Proof.Machine

/-- "The host write that carries a command word is answered `Ok` only when the command has finished" (R139),
whatever its outcome (R42); where the command waits for good, the write "is never answered" (R176). -/
def answerOk (o : Host.Outcome State Fault Refusal) : Host.Outcome State Fault Refusal :=
  match o with
  | .next s => .next (if s.line.waiting = none then s.respond .ok else s)
  | .fault r => .fault r
  | .refused r => .refused r

/-- A write of a command word to CMD (R60, R65): decoding comes first (R156); an illegal word only sets ERR. -/
def runCommand (cw : Word) (s : State) : Host.Outcome State Fault Refusal :=
  match decode cw with
  | .instr i => answerOk (exec i s)
  | .illegal _ => .next (s.raiseIllegal.respond .ok)

/-- `HostWrite(addr, data)` (R42): Unmapped, then AccessDenied, then the write. -/
def hostWrite (a : Addr) (data : Word) (s : State) : Host.Outcome State Fault Refusal :=
  match locate a with
  | none => .next (s.respond (.busError .unmapped))
  | some .cmd => runCommand data s
  | some l =>
    match l.access with
    | .readOnly => .next (s.respond (.busError .accessDenied))
    | .writeOnly | .readWrite => .next ((s.writeControl l data).respond .ok)

/-- One input, served whole (R51): nothing else is taken meanwhile. -/
def serve (x : Input) (s : State) : Host.Outcome State Fault Refusal :=
  match x with
  | .read a => .next (s.respond (s.regs.hostRead a))
  | .write a data => hostWrite a data s
  | .hardReset => .next s.hardReset

/-- What the stuck core does (R176): it takes no host transaction; a hardware reset, wherever it stands among the
inputs, ends the wait, and the transactions before it are still to be taken (log entry 11). -/
def awaitReset (s : State) : State :=
  if .hardReset ∈ s.host.pending then (s.withPending (s.host.pending.erase .hardReset)).hardReset else s

/-- Take the oldest pending input and serve it (R51). With none pending the core waits (R170): nothing changes. -/
def takeInput (s : State) : Host.Outcome State Fault Refusal :=
  match s.line.waiting with
  | some _ => .next (awaitReset s)
  | none =>
    match s.host.pending with
    | [] => .next s
    | x :: rest => serve x (s.withPending rest)

/-- The host write that carries the command word `w` of `nbits` bits, put before every other input, on a core that
waits for no line (a stuck core takes no command, R176). -/
def withCommandFirst (s : State) (nbits w : Nat) : State :=
  { s.withPending (.write Loc.cmd.addr (BitVec.ofNat 32 (w % 2 ^ nbits)) :: s.host.pending) with
    line := s.line.endWait }

end Sys2Proof.Machine
end

