-- ==== Sys2Proof/Machine/Step.lean ====
section
/-! DEFINITION. One step: the core takes one input, completes it, responds (20_memory.md R51); stuck, it awaits the
hardware reset (70_reset_and_hazards.md R176). -/

namespace Sys2Proof.Machine

/-- One step of the machine (R51, R176). -/
def step (s : State) : Host.Outcome State Fault Refusal := takeInput s

/-- The state in which the next step takes the host's write of the command word `w` to CMD: the core fetches nothing
(R20, R54), a command comes to run only by that write (R60; log entry 2). -/
def State.withFetchWord (s : State) (nbits w : Nat) : State := withCommandFirst s nbits w

end Sys2Proof.Machine
end

