-- ==== Sys2Proof/WellFormed.lean ====
section
/-! DEFINITION. Well-formedness. A term of `Instr` carries its operands at the encoding's own widths, so the
checks stand where an operand can be out of range: in the listing (30_encoding.md R67, R68), whose operands are
integers. "An operand outside its range cannot be encoded and is an error of the listing, not a command." -/

namespace Sys2Proof

/-- A command as a listing line writes it (R67): the mnemonic and its operands as integers, in the listing's
operand order. -/
inductive ListingCmd where
  | nop
  | srst
  | asm
  | remap
  | dec12 (r : Int)
  | splitp (r : Int)
  | splitl (r : Int)
  | enc12 (v : Int)
  | rmp1 (v : Int)
  | decpx (lo hi : Int)
  | therm (hi lo : Int)
  deriving DecidableEq, Repr

namespace WellFormed

/-- `r` in 0..4095 (R63, R67). -/
def raw12 (r : Int) : Bool := 0 ≤ r && r ≤ 4095

/-- `v` in −32768..32767 (R63, R67). -/
def imm16 (v : Int) : Bool := -32768 ≤ v && v ≤ 32767

/-- A byte 0..255 (R63, R67). -/
def byte (b : Int) : Bool := 0 ≤ b && b ≤ 255

end WellFormed

/-- The operand ranges of R67, per mnemonic. -/
def ListingCmd.wellFormed : ListingCmd → Bool
  | .nop => true
  | .srst => true
  | .asm => true
  | .remap => true
  | .dec12 r => WellFormed.raw12 r
  | .splitp r => WellFormed.raw12 r
  | .splitl r => WellFormed.raw12 r
  | .enc12 v => WellFormed.imm16 v
  | .rmp1 v => WellFormed.imm16 v
  | .decpx lo hi => WellFormed.byte lo && WellFormed.byte hi
  | .therm hi lo => WellFormed.byte hi && WellFormed.byte lo

end Sys2Proof
end

