-- ==== Sys2Proof/Machine/Listing.lean ====
section
/-! DEFINITION. The listing notation (30_encoding.md R67 to R69): commands with integer operands, host transactions by
register name, and the three pseudo-instructions. A listing is a way to write inputs; it adds nothing to the machine. -/

namespace Sys2Proof.Machine

/-- The command of a listing line (R67); none where an operand is out of its range ("an error of the listing"). -/
def assemble (c : ListingCmd) : Option Instr :=
  if c.wellFormed then
    match c with
    | .nop => some .nop
    | .srst => some .srst
    | .asm => some .asm
    | .remap => some .remap
    | .dec12 r => some (.dec12 (BitVec.ofInt 12 r))
    | .splitp r => some (.splitp (BitVec.ofInt 12 r))
    | .splitl r => some (.splitl (BitVec.ofInt 12 r))
    | .enc12 v => some (.enc12 (BitVec.ofInt 16 v))
    | .rmp1 v => some (.rmp1 (BitVec.ofInt 16 v))
    | .decpx lo hi => some (.decpx (BitVec.ofInt 8 lo) (BitVec.ofInt 8 hi))
    | .therm hi lo => some (.therm (BitVec.ofInt 8 hi) (BitVec.ofInt 8 lo))
  else none

/-- A line of a listing (R67 to R69). -/
inductive ListingLine where
  /-- A command mnemonic: "stands for the host write `WR CMD, <its encoding>`". -/
  | cmd (c : ListingCmd)
  /-- `WR name, value`. -/
  | wr (name : Loc) (value : Int)
  /-- `RD name`, with the response the listing expects, if it gives one. -/
  | rd (name : Loc) (expected : Option Response)
  /-- `SRCMAN lo, hi`. -/
  | srcman (lo hi : Int)
  /-- `SRCAUTO`. -/
  | srcauto
  /-- `TGT lo, hi`, lo and hi in 0..255. -/
  | tgt (lo hi : Int)
  deriving DecidableEq, Repr

/-- `WR name, value` is `HostWrite(address of name, value mod 2^32)` (R69). -/
def wrInput (name : Loc) (value : Int) : Input := .write name.addr (BitVec.ofInt 32 value)

/-- The host transactions of a listing line (R68, R69); none for an error of the listing. -/
def ListingLine.expand : ListingLine → Option (List Input)
  | .cmd c => (assemble c).map fun i => [.write Loc.cmd.addr (encode i)]
  | .wr name value => some [wrInput name value]
  | .rd name _ => some [.read name.addr]
  | .srcman lo hi => some [wrInput .srcLo lo, wrInput .srcHi hi, wrInput .ctrl 1]
  | .srcauto => some [wrInput .ctrl 0]
  | .tgt lo hi =>
    if WellFormed.byte lo && WellFormed.byte hi then some [wrInput .tgtLo lo, wrInput .tgtHi hi] else none

/-- The inputs of a whole listing, in order; none if any line is in error. -/
def expandListing : List ListingLine → Option (List Input)
  | [] => some []
  | l :: ls =>
    match l.expand, expandListing ls with
    | some xs, some ys => some (xs ++ ys)
    | _, _ => none

end Sys2Proof.Machine
end

