-- ==== Sys2Proof/Safety.lean ====
section
/-! DEFINITION. What claims are about: the invariants of the state (10_state.md R24, 20_memory.md R45,
70_reset_and_hazards.md R176) and what a safe step is. -/

namespace Sys2Proof.Machine

/-- The frame invariant of R24: MINV and MAXV bound every cell, MINP and MAXP point at cells that hold them, and each
is the smallest such cell index. -/
structure Frame.Inv (f : Frame) : Prop where
  min_le : ∀ n : Fin 64, cellValue f.minv ≤ cellValue f.cells[n]
  le_max : ∀ n : Fin 64, cellValue f.cells[n] ≤ cellValue f.maxv
  at_minp : f.cells[f.minp.toNat] = f.minv
  at_maxp : f.cells[f.maxp.toNat] = f.maxv
  minp_first : ∀ n : Fin 64, f.cells[n] = f.minv → f.minp.toNat ≤ n.val
  maxp_first : ∀ n : Fin 64, f.cells[n] = f.maxv → f.maxp.toNat ≤ n.val

/-- R24 of the machine: "Whenever FV = 1". -/
def FrameInv (s : State) : Prop := ∀ f, s.regs.frame = some f → f.Inv

/-- R45 of the request trace: every request the core has issued is one of the 8 line reads of the pixel array. -/
def RequestsInv (s : State) : Prop := ∀ q ∈ s.line.requests, ∃ i : Fin 8, q = lineRequest i.val

/-- R176 of the request trace: a stuck core waits for the answer to the last request it issued. -/
def WaitInv (s : State) : Prop :=
  ∀ l, s.line.waiting = some l → s.line.requests.getLast? = some (lineRequest l)

/-- The invariant of the machine. -/
structure Inv (s : State) : Prop where
  frame : FrameInv s
  requests : RequestsInv s
  wait : WaitInv s

/-- A safe step: the machine goes on and is not stuck (R176). -/
def SafeStep (s : State) : Prop := ∃ t, step s = .next t ∧ t.line.waiting = none

/-- The next step takes the command word `cw` (R51, R60). -/
def CommandTaken (s : State) (cw : Word) : Prop :=
  s.line.waiting = none ∧ ∃ rest, s.host.pending = .write 0x00 cw :: rest

/-- The next step takes a hardware reset: the next input, or, for a stuck core, one among its inputs (R170, R176).
That a reset stands among the inputs is the model's choice (log entry 11). -/
def HardResetTaken (s : State) : Prop :=
  (s.line.waiting = none ∧ ∃ rest, s.host.pending = .hardReset :: rest) ∨
    (s.line.waiting ≠ none ∧ Input.hardReset ∈ s.host.pending)

/-- The six codec commands (41_codec.md). -/
def isCodec : Instr → Bool
  | .dec12 _ | .enc12 _ | .decpx _ _ | .splitp _ | .splitl _ | .therm _ _ => true
  | .nop | .srst | .asm | .remap | .rmp1 _ => false

/-- The commands whose destinations are RES0 and RES1 (R14, R157): the codec commands and `RMP1`. -/
def writesResults : Instr → Bool
  | .dec12 _ | .enc12 _ | .decpx _ _ | .splitp _ | .splitl _ | .therm _ _ | .rmp1 _ => true
  | .nop | .srst | .asm | .remap => false

/-- The outcomes a command can end with, by the column "raised by" of R150 (OK is every command's). -/
def canEndWith : Instr → ErrCode → Prop
  | .enc12 _, e | .therm _ _, e => e = .ok ∨ e = .domainError
  | .asm, e => e = .ok ∨ e = .shortReadError ∨ e = .lengthError ∨ e = .transportError
  | .remap, e | .rmp1 _, e => e = .ok ∨ e = .degenerateRangeError ∨ e = .noFrame
  | .nop, e | .srst, e | .dec12 _, e | .decpx _ _, e | .splitp _, e | .splitl _, e => e = .ok

end Sys2Proof.Machine
end

