-- ==== Sys2Proof/Certificates/Slice0/Obligations.lean ====
section
/-! DEFINITION. The statements for the provers. Each docstring names the rule of spec/ it formalises. A state update
written out as a record says at once that the command completes, what it writes, and that every other element and
both ports are as before. `s.line.waiting = none` says that the core is not in the stuck state of R176. -/

open Sys2Proof Sys2Proof.Machine

/-! ### Encoding and decoding -/

/-- R64, R67: words written out from the encoding tables decode to the commands they stand for. -/
def Obligations.SampleWordsDecode : Prop :=
  decode 0x00000000 = .instr .nop ∧ decode 0x01000000 = .instr .srst ∧
  decode 0x10000FD8 = .instr (.dec12 0xFD8) ∧ decode 0x1100FFD8 = .instr (.enc12 (BitVec.ofInt 16 (-40))) ∧
  decode 0x12000FD8 = .instr (.decpx 0xD8 0x0F) ∧ decode 0x15000190 = .instr (.therm 0x01 0x90) ∧
  decode 0x20000000 = .instr .asm ∧ decode 0x31000032 = .instr (.rmp1 50)

/-- R62, R63, R64: no operand bit of any command is dropped. -/
def Obligations.DecodeOfEncode : Prop :=
  ∀ i : Instr, decode (encode i) = .instr i

/-- R62, R64: each command has one word; a word that decodes is the word of the command it decodes to. -/
def Obligations.EncodeOfDecode : Prop :=
  ∀ (cw : Word) (i : Instr), decode cw = .instr i → encode i = cw

/-- R64: "a word `cw` is the command of a row when `cw & mask = match`"; the rows are disjoint. -/
def Obligations.DecodeFollowsOpcodeTable : Prop :=
  ∀ cw : Word,
    (∀ r ∈ opcodeTable, (cw &&& r.mask = r.pattern ↔ ∃ i, decode cw = .instr i ∧ i.row = r)) ∧
    (∀ r₁ ∈ opcodeTable, ∀ r₂ ∈ opcodeTable, cw &&& r₁.mask = r₁.pattern → cw &&& r₂.mask = r₂.pattern → r₁ = r₂) ∧
    ((∀ r ∈ opcodeTable, cw &&& r.mask ≠ r.pattern) ↔ ∃ why, decode cw = .illegal why)

/-- R65: an illegal word sets ERR to 6 and does nothing else, and its host write ends in `Ok`. -/
def Obligations.IllegalWordOnlySetsErr : Prop :=
  ∀ (s : State) (cw : Word) (rest : List Input), s.line.waiting = none →
    s.host.pending = .write 0x00 cw :: rest →
    (∀ r ∈ opcodeTable, cw &&& r.mask ≠ r.pattern) →
    step s = .next { s with
      regs := { s.regs with err := .illegalCommand }
      host := ⟨rest, s.host.responses ++ [.ok]⟩ } ∧ ErrCode.illegalCommand.code = 6

/-- The step: the word written to CMD runs as the command it decodes to; the write is answered `Ok` once the command
has ended (R139), and not at all if it waits for good (R176). -/
def Obligations.StepRunsDecodedCommand : Prop :=
  ∀ (s : State) (cw : Word) (rest : List Input) (i : Instr), s.line.waiting = none →
    s.host.pending = .write 0x00 cw :: rest → decode cw = .instr i →
    step s =
      match exec i { s with host := { s.host with pending := rest } } with
      | .next t =>
        .next (if t.line.waiting = none then { t with host := { t.host with responses := t.host.responses ++ [.ok] } }
          else t)
      | .fault f => .fault f
      | .refused r => .refused r

/-- The word of any command, put where the next command comes from, is the next to run. -/
def Obligations.FetchWordRunsCommand : Prop :=
  ∀ (s t : State) (i : Instr), s.line.waiting = none → exec i s = .next t → t.line.waiting = none →
    step (s.withFetchWord 32 (encode i).toNat) =
      .next { t with host := { t.host with responses := t.host.responses ++ [.ok] } }

/-! ### System commands and reset -/

/-- R135. -/
def Obligations.NopChangesNothingButErr : Prop :=
  decode 0x00000000 = .instr .nop ∧
  ∀ s : State, ∃ t, exec .nop s = .next t ∧ t = { s with regs := { s.regs with err := .ok } } ∧
    t.regs.statusWord = s.regs.statusWord &&& 0xFFFFFFF0

/-- R136. -/
def Obligations.SrstGivesResetState : Prop :=
  decode 0x01000000 = .instr .srst ∧
  ∀ s : State, ∃ t, exec .srst s = .next t ∧ t.host = s.host ∧ t.line = s.line ∧
    t.regs = State.reset.regs ∧ t.regs.statusWord = 0 ∧ t.regs.srcsel = false ∧ t.regs.srcLo = 0 ∧
    t.regs.srcHi = 0 ∧ t.regs.tgtLo = 0 ∧ t.regs.tgtHi = 255 ∧ t.regs.res = none ∧ t.regs.frame = none ∧
    t.regs.gray = none

/-- R25, R170, R171: a hardware reset gives every element its reset value, as the host can read it, touches neither
port's traffic and leaves the core waiting for no line. That the reset is an input the core takes in order is the
model's choice (log entry 11). -/
def Obligations.HardResetGivesResetState : Prop :=
  ∀ (s : State) (rest : List Input), s.host.pending = .hardReset :: rest →
    ∃ t, step s = .next t ∧ t.host = ⟨rest, s.host.responses⟩ ∧ t.line = { s.line with waiting := none } ∧
      t.regs = State.reset.regs ∧
      t.regs.hostRead 0x01 = .okData 0 ∧ t.regs.hostRead 0x02 = .okData 0 ∧
      t.regs.hostRead 0x03 = .busError .noValue ∧ t.regs.hostRead 0x04 = .busError .noValue ∧
      t.regs.hostRead 0x05 = .okData 0 ∧ t.regs.hostRead 0x06 = .okData 0 ∧
      t.regs.hostRead 0x07 = .okData 0 ∧ t.regs.hostRead 0x08 = .okData 255 ∧
      t.regs.hostRead 0x09 = .busError .noValue ∧ t.regs.hostRead 0x0A = .busError .noValue ∧
      t.regs.hostRead 0x0B = .busError .noValue ∧ t.regs.hostRead 0x0C = .busError .noValue ∧
      ∀ n : Fin 64, t.regs.hostRead (BitVec.ofNat 8 (0x40 + n.val)) = .busError .noValue ∧
        t.regs.hostRead (BitVec.ofNat 8 (0x80 + n.val)) = .busError .noValue

/-! ### Codec -/

/-- R85, with the sign rule of R80. -/
def Obligations.Dec12SignExtendsCode : Prop :=
  ∀ (raw : Raw12) (s : State), decode (0x10#8 ++ 0#12 ++ raw) = .instr (.dec12 raw) ∧
    ∃ r0 : Word,
      exec (.dec12 raw) s = .next { s with regs := { s.regs with res := some ⟨r0, 0⟩, err := .ok } } ∧
      r0.toInt = if raw.toNat < 2048 then (raw.toNat : Int) else (raw.toNat : Int) - 4096

/-- R86, with the code of R81. -/
def Obligations.Enc12EncodesOrDomainError : Prop :=
  ∀ (imm16 : BitVec 16) (s : State), decode (0x11#8 ++ 0#8 ++ imm16) = .instr (.enc12 imm16) ∧
    (-2048 ≤ imm16.toInt ∧ imm16.toInt ≤ 2047 → ∃ r0 : Word,
      exec (.enc12 imm16) s = .next { s with regs := { s.regs with res := some ⟨r0, 0⟩, err := .ok } } ∧
      (r0.toNat : Int) = imm16.toInt % 4096) ∧
    (imm16.toInt < -2048 ∨ 2047 < imm16.toInt →
      exec (.enc12 imm16) s = .next { s with regs := { s.regs with res := none, err := .domainError } })

/-- R87, with the join of R82 and the sign rule of R80. -/
def Obligations.DecpxJoinsAndDecodes : Prop :=
  ∀ (lo hi : Byte) (s : State), decode (0x12#8 ++ 0#8 ++ hi ++ lo) = .instr (.decpx lo hi) ∧
    ∃ r0 r1 : Word,
      exec (.decpx lo hi) s = .next { s with regs := { s.regs with res := some ⟨r0, r1⟩, err := .ok } } ∧
      r1.toNat = hi.toNat % 16 * 256 + lo.toNat ∧
      r0.toInt = if r1.toNat < 2048 then (r1.toNat : Int) else (r1.toNat : Int) - 4096

/-- R88, with the split of R82. -/
def Obligations.SplitpSplitsAtEight : Prop :=
  ∀ (raw : Raw12) (s : State), decode (0x13#8 ++ 0#12 ++ raw) = .instr (.splitp raw) ∧
    ∃ r0 r1 : Word,
      exec (.splitp raw) s = .next { s with regs := { s.regs with res := some ⟨r0, r1⟩, err := .ok } } ∧
      r0.toNat = raw.toNat % 256 ∧ r1.toNat = raw.toNat / 256

/-- R89, with the split of R83. -/
def Obligations.SplitlSplitsAtNineAndSeven : Prop :=
  ∀ (raw : Raw12) (s : State), decode (0x14#8 ++ 0#12 ++ raw) = .instr (.splitl raw) ∧
    ∃ r0 r1 : Word,
      exec (.splitl raw) s = .next { s with regs := { s.regs with res := some ⟨r0, r1⟩, err := .ok } } ∧
      r0.toNat = raw.toNat % 128 ∧ r1.toNat = raw.toNat / 512

/-- R90, with the combination and sign rule of R84. -/
def Obligations.ThermCombinesOrDomainError : Prop :=
  ∀ (hi lo : Byte) (s : State), decode (0x15#8 ++ 0#8 ++ hi ++ lo) = .instr (.therm hi lo) ∧
    (hi.toNat < 0x10 → ∃ r0 r1 : Word,
      exec (.therm hi lo) s = .next { s with regs := { s.regs with res := some ⟨r0, r1⟩, err := .ok } } ∧
      r1.toNat = hi.toNat * 64 + lo.toNat / 4 ∧
      r0.toInt = if r1.toNat < 512 then (r1.toNat : Int) else (r1.toNat : Int) - 1024) ∧
    (0x10 ≤ hi.toNat →
      exec (.therm hi lo) s = .next { s with regs := { s.regs with res := none, err := .domainError } })

/-- R91: the round trips of the codec's functions. -/
def Obligations.CodecRoundTrip : Prop :=
  (∀ raw : Raw12, encode12 (decode12 raw) = some raw) ∧
  (∀ v : Int, -2048 ≤ v → v ≤ 2047 → ∃ raw, encode12 v = some raw ∧ decode12 raw = v) ∧
  ∀ lo hi hi' : Byte, hi &&& 0x0F = hi' &&& 0x0F →
    decode12 (joinPixel lo hi) = decode12 (joinPixel lo hi')

/-- The source's first property on the core (95_test_vectors.md S1): `ENC12` of what `DEC12` left in RES0 gives the
code back. -/
def Obligations.Enc12UndoesDec12 : Prop :=
  ∀ (raw : Raw12) (s : State), ∃ (t u : State) (r0 : Word), exec (.dec12 raw) s = .next t ∧
    t.regs.res = some ⟨r0, 0⟩ ∧ exec (.enc12 (r0.extractLsb' 0 16)) t = .next u ∧
    u.regs.res = some ⟨raw.setWidth 32, 0⟩ ∧ u.regs.err = .ok

/-- The law under V4: `DECPX` of the bytes `SPLITP` left gives the code back. -/
def Obligations.DecpxUndoesSplitp : Prop :=
  ∀ (raw : Raw12) (s : State), ∃ (t u : State) (r0 r1 q : Word), exec (.splitp raw) s = .next t ∧
    t.regs.res = some ⟨r0, r1⟩ ∧ exec (.decpx (r0.extractLsb' 0 8) (r1.extractLsb' 0 8)) t = .next u ∧
    u.regs.res = some ⟨q, raw.setWidth 32⟩

/-- R83, R178: two codes that differ only in bits 8 and 7 are split alike by `SPLITL`, and `SPLITP` tells them
apart. -/
def Obligations.SplitlLosesBitsEightAndSeven : Prop :=
  ∀ (a b : Raw12) (s : State), a &&& 0xE7F = b &&& 0xE7F →
    (∃ t, exec (.splitl a) s = .next t ∧ exec (.splitl b) s = .next t) ∧
    (a ≠ b → exec (.splitp a) s ≠ exec (.splitp b) s)

/-- R92: "no codec command depends on any state". -/
def Obligations.CodecResultIndependentOfState : Prop :=
  ∀ (i : Instr) (s₁ s₂ : State), isCodec i = true →
    ∃ t₁ t₂, exec i s₁ = .next t₁ ∧ exec i s₂ = .next t₂ ∧ t₁.regs.res = t₂.regs.res ∧ t₁.regs.err = t₂.regs.err

/-! ### Frame assembler -/

/-- R109, with the command of R103: a successful `ASM` leaves a frame that depends on the 8 answers alone. That the
replies stand in `line.given` and each request uses one up, and that the requests are kept in `line.requests`, is the
model's choice (log entries 5 and 4). -/
def Obligations.AsmFrameIsFunctionOfAnswers : Prop :=
  decode 0x20000000 = .instr .asm ∧
  ∀ b : Fin 8 → Block, ∃ f : Frame,
    (∀ i k : Fin 8, f.cells[8 * i.val + k.val].toInt =
      decode12 (joinPixel (b i)[2 * k.val] (b i)[2 * k.val + 1])) ∧
    f.Inv ∧
    ∀ s : State, (∀ i : Fin 8, s.line.upcoming i.val = .bytes (b i).toList) →
      exec .asm s = .next { s with
        regs := { s.regs with frame := some f, err := .ok }
        line := { s.line with
          given := s.line.given.drop 8
          requests := s.line.requests ++ (List.range 8).map fun i => ⟨i, BitVec.ofNat 8 (0x80 + 16 * i), 16⟩ } }

/-- R104 to R108: the first line with a faulty answer ends `ASM` with its outcome; no later line is read and no
frame is left. That the replies stand in `line.given` and each request uses one up, and that the requests are kept in
`line.requests`, is the model's choice (log entries 5 and 4). -/
def Obligations.AsmFailsAtFirstFaultyLine : Prop :=
  ∀ (s : State) (m : Fin 8) (e : ErrCode),
    (∀ i : Nat, i < m.val → ∃ l : List Byte, s.line.upcoming i = .bytes l ∧ l.length = 16) →
    ((s.line.upcoming m.val = .transportError ∧ e = .transportError) ∨
      ∃ l : List Byte, s.line.upcoming m.val = .bytes l ∧
        ((l.length < 16 ∧ e = .shortReadError) ∨ (16 < l.length ∧ e = .lengthError))) →
    exec .asm s = .next { s with
      regs := { s.regs with frame := none, err := e }
      line := { s.line with
        given := s.line.given.drop (m.val + 1)
        requests := s.line.requests ++
          (List.range (m.val + 1)).map fun i => ⟨i, BitVec.ofNat 8 (0x80 + 16 * i), 16⟩ } }

/-- R176: a line read that is never answered leaves `ASM` without an end and its host write without an answer; the
core then takes no transaction, and a hardware reset ends this. That the reset may stand behind transactions among the
inputs, and that these are then still to be taken, is the model's choice (log entry 11), and so are the lists
`line.given` and `line.requests` (log entries 5 and 4). -/
def Obligations.SilentTransportSticksUntilHardReset : Prop :=
  (∀ (s : State) (m : Fin 8) (rest : List Input), s.line.waiting = none →
    s.host.pending = .write 0x00 0x20000000 :: rest →
    (∀ i : Nat, i < m.val → ∃ l : List Byte, s.line.upcoming i = .bytes l ∧ l.length = 16) →
    s.line.upcoming m.val = .silent →
    step s = .next { s with
      host := { s.host with pending := rest }
      line := ⟨s.line.given.drop (m.val + 1),
        s.line.requests ++ (List.range (m.val + 1)).map (fun i => ⟨i, BitVec.ofNat 8 (0x80 + 16 * i), 16⟩),
        some m.val⟩ }) ∧
  ∀ (s : State) (l : Nat), s.line.waiting = some l →
    (.hardReset ∉ s.host.pending → step s = .next s) ∧
    ∀ xs ys : List Input, .hardReset ∉ xs → s.host.pending = xs ++ .hardReset :: ys →
      step s = .next
        { regs := State.reset.regs
          host := { s.host with pending := xs ++ ys }
          line := { s.line with waiting := none } }

/-- R181: a command completes if and only if every line read it issues is answered; line m is read exactly when all
earlier lines were answered with 16 bytes. -/
def Obligations.CommandCompletesIffReadsAnswered : Prop :=
  ∀ (i : Instr) (s : State), s.line.waiting = none →
    (i ≠ .asm → ∃ t, exec i s = .next t ∧ t.line = s.line) ∧
    ∃ t, exec .asm s = .next t ∧
      (t.line.waiting = none ↔
        ∀ m : Fin 8, (∀ j : Nat, j < m.val → ∃ l : List Byte, s.line.upcoming j = .bytes l ∧ l.length = 16) →
          s.line.upcoming m.val ≠ .silent)

/-- R46: "the core issues no request outside `ASM`". -/
def Obligations.OnlyAsmReadsLines : Prop :=
  ∀ s t : State, step s = .next t → t.line.requests ≠ s.line.requests →
    CommandTaken s 0x20000000

/-! ### Remapper -/

/-- R125, with R120 to R124. -/
def Obligations.RemapOutcomes : Prop :=
  decode 0x30000000 = .instr .remap ∧
  ∀ s : State,
    (s.regs.frame = none →
      exec .remap s = .next { s with regs := { s.regs with gray := none, sat := false, err := .noFrame } }) ∧
    ∀ (f : Frame) (sl sh : Int), s.regs.frame = some f →
      (sl, sh) = (if s.regs.srcsel then (s.regs.srcLo.toInt, s.regs.srcHi.toInt)
        else (f.minv.toInt, f.maxv.toInt)) →
      (sl = sh → exec .remap s = .next { s with
        regs := { s.regs with gray := none, sat := false, err := .degenerateRangeError } }) ∧
      (sl ≠ sh → ∃ (g : Vector Byte 64) (sat : Bool),
        exec .remap s = .next { s with regs := { s.regs with gray := some g, sat := sat, err := .ok } } ∧
        (∀ n : Fin 64, (g[n].toNat : Int) = max 0 (min 255 (Int.tdiv
          (s.regs.tgtLo.toNat * (sh - sl) + (f.cells[n].toInt - sl) * ((s.regs.tgtHi.toNat : Int) - s.regs.tgtLo.toNat))
          (sh - sl)))) ∧
        (sat = true ↔ ∃ n : Fin 64,
          Int.tdiv (s.regs.tgtLo.toNat * (sh - sl) +
            (f.cells[n].toInt - sl) * ((s.regs.tgtHi.toNat : Int) - s.regs.tgtLo.toNat)) (sh - sl) < 0 ∨
          255 < Int.tdiv (s.regs.tgtLo.toNat * (sh - sl) +
            (f.cells[n].toInt - sl) * ((s.regs.tgtHi.toNat : Int) - s.regs.tgtLo.toNat)) (sh - sl)))

/-- R126, with R120 to R124. -/
def Obligations.Rmp1Outcomes : Prop :=
  ∀ (imm16 : BitVec 16) (s : State), decode (0x31#8 ++ 0#8 ++ imm16) = .instr (.rmp1 imm16) ∧
    (s.regs.srcsel = false → s.regs.frame = none →
      exec (.rmp1 imm16) s = .next { s with regs := { s.regs with res := none, sat := false, err := .noFrame } }) ∧
    ∀ sl sh : Int,
      (s.regs.srcsel = true ∧ sl = s.regs.srcLo.toInt ∧ sh = s.regs.srcHi.toInt) ∨
        (s.regs.srcsel = false ∧ ∃ f, s.regs.frame = some f ∧ sl = f.minv.toInt ∧ sh = f.maxv.toInt) →
      (sl = sh → exec (.rmp1 imm16) s = .next { s with
        regs := { s.regs with res := none, sat := false, err := .degenerateRangeError } }) ∧
      (sl ≠ sh → ∃ (r0 r1 : Word) (sat : Bool),
        exec (.rmp1 imm16) s = .next { s with
          regs := { s.regs with res := some ⟨r0, r1⟩, sat := sat, err := .ok } } ∧
        r1.toInt = Int.tdiv (s.regs.tgtLo.toNat * (sh - sl) +
          (imm16.toInt - sl) * ((s.regs.tgtHi.toNat : Int) - s.regs.tgtLo.toNat)) (sh - sl) ∧
        (r0.toNat : Int) = max 0 (min 255 r1.toInt) ∧
        (sat = true ↔ r1.toInt < 0 ∨ 255 < r1.toInt))

/-- R120, R121 and R7: RES1 of `RMP1` is N / D truncated toward zero (the remainder is 0 or has the sign of N) and
lies within the bounds of R120, for a caller-supplied range. -/
def Obligations.Rmp1TruncatesTowardZeroWithinBounds : Prop :=
  ∀ (imm16 : BitVec 16) (s : State), s.regs.srcsel = true → s.regs.srcLo ≠ s.regs.srcHi →
    ∃ (t : State) (r0 r1 : Word) (num den rem : Int), exec (.rmp1 imm16) s = .next t ∧
      t.regs.res = some ⟨r0, r1⟩ ∧
      den = s.regs.srcHi.toInt - s.regs.srcLo.toInt ∧
      num = s.regs.tgtLo.toNat * den +
        (imm16.toInt - s.regs.srcLo.toInt) * ((s.regs.tgtHi.toNat : Int) - s.regs.tgtLo.toNat) ∧
      r1.toInt * den = num - rem ∧ |rem| < |den| ∧ (rem = 0 ∨ (0 < rem ∧ 0 < num) ∨ (rem < 0 ∧ num < 0)) ∧
      |den| ≤ 65535 ∧ |num| ≤ 2 * 65535 * 255 ∧ |r1.toInt| ≤ 255 + 65535 * 255

/-- R125, its corner cases: with the frame's own range nothing clamps, every intensity lies between the target
bounds, and with the target (0, 255) the minimum maps to 0 and the maximum to 255. The premise on the frame is the
invariant of R24, which every step keeps (StepKeepsFrameInvariant). -/
def Obligations.RemapOwnRangeStaysInTarget : Prop :=
  ∀ (s : State) (f : Frame), s.regs.frame = some f → f.Inv → s.regs.srcsel = false → f.minv ≠ f.maxv →
    ∃ (t : State) (g : Vector Byte 64), exec .remap s = .next t ∧ t.regs.gray = some g ∧ t.regs.sat = false ∧
      (∀ n : Fin 64, min s.regs.tgtLo.toNat s.regs.tgtHi.toNat ≤ g[n].toNat ∧
        g[n].toNat ≤ max s.regs.tgtLo.toNat s.regs.tgtHi.toNat) ∧
      (s.regs.tgtLo = 0 → s.regs.tgtHi = 255 → g[f.minp.toNat] = 0 ∧ g[f.maxp.toNat] = 255)

/-- R127: `GRAY[n]` after `REMAP` equals RES0 after `RMP1 FRAME[n]` under the same ranges. -/
def Obligations.RemapLaneEqualsRmp1 : Prop :=
  ∀ (s : State) (f : Frame) (n : Fin 64), s.regs.frame = some f →
    (if s.regs.srcsel then s.regs.srcLo ≠ s.regs.srcHi else f.minv ≠ f.maxv) →
    ∃ (t u : State) (g : Vector Byte 64) (r1 : Word), exec .remap s = .next t ∧ t.regs.gray = some g ∧
      exec (.rmp1 (f.cells[n].signExtend 16)) t = .next u ∧ u.regs.res = some ⟨g[n].setWidth 32, r1⟩

/-- R123: "`th = tl` gives the constant `tl`", on both commands. -/
def Obligations.EqualTargetsGiveConstantMap : Prop :=
  ∀ (s : State) (imm16 : BitVec 16), s.regs.srcsel = true → s.regs.srcLo ≠ s.regs.srcHi →
    s.regs.tgtLo = s.regs.tgtHi →
    (∃ t, exec (.rmp1 imm16) s = .next t ∧ t.regs.sat = false ∧
      t.regs.res = some ⟨s.regs.tgtLo.setWidth 32, s.regs.tgtLo.setWidth 32⟩) ∧
    (s.regs.frame ≠ none → ∃ t g, exec .remap s = .next t ∧ t.regs.gray = some g ∧ t.regs.sat = false ∧
      ∀ n : Fin 64, g[n] = s.regs.tgtLo)

/-! ### Status, outcomes, who writes what -/

/-- R12, R150: the fields of STATUS and the codes of ERR. -/
def Obligations.StatusWordFields : Prop :=
  ∀ r : Regs,
    r.hostRead 0x01 = .okData r.statusWord ∧
    r.statusWord.extractLsb' 0 4 = r.err.code ∧ r.statusWord.getLsbD 4 = r.res.isSome ∧
    r.statusWord.getLsbD 5 = r.frame.isSome ∧ r.statusWord.getLsbD 6 = r.gray.isSome ∧
    r.statusWord.getLsbD 7 = r.sat ∧ r.statusWord.extractLsb' 8 24 = 0 ∧
    ErrCode.ok.code = 0 ∧ ErrCode.domainError.code = 1 ∧ ErrCode.shortReadError.code = 2 ∧
    ErrCode.lengthError.code = 3 ∧ ErrCode.degenerateRangeError.code = 4 ∧ ErrCode.transportError.code = 5 ∧
    ErrCode.illegalCommand.code = 6 ∧ ErrCode.noFrame.code = 7

/-- R157, R21: a command that ends OK leaves its destinations with a value, and one that ends with an error outcome
leaves them without one, with SAT cleared by the remap commands. -/
def Obligations.OutcomeDecidesDestinations : Prop :=
  ∀ (i : Instr) (s t : State), exec i s = .next t → t.line.waiting = none →
    (writesResults i = true → (t.regs.rv = true ↔ t.regs.err = .ok)) ∧
    (i = .asm → (t.regs.fv = true ↔ t.regs.err = .ok)) ∧
    (i = .remap → (t.regs.gv = true ↔ t.regs.err = .ok) ∧ (t.regs.err ≠ .ok → t.regs.sat = false)) ∧
    (∀ imm16, i = .rmp1 imm16 → t.regs.err ≠ .ok → t.regs.sat = false)

/-- R150, the column "raised by": the outcomes each command can end with. -/
def Obligations.OutcomesPerCommand : Prop :=
  ∀ (i : Instr) (s t : State), exec i s = .next t → t.line.waiting = none → canEndWith i t.regs.err

/-- R12, R159: ERR is not sticky; nothing a command word does depends on the ERR before it. -/
def Obligations.ErrIsNotSticky : Prop :=
  ∀ (s : State) (e : ErrCode) (cw : Word) (rest : List Input), s.line.waiting = none →
    s.host.pending = .write 0x00 cw :: rest →
    (∃ u, step s = .next u ∧ u.line.waiting = none) →
    step { s with regs := { s.regs with err := e } } = step s

/-- R14: RES0, RES1 and RV are written only by the codec commands and `RMP1` (and by a reset; when a
hardware reset is taken is the model's choice, log entry 11). -/
def Obligations.ResultsWrittenOnlyByCodecAndRmp1 : Prop :=
  ∀ s t : State, step s = .next t → t.regs.res ≠ s.regs.res →
    (∃ cw i, CommandTaken s cw ∧ decode cw = .instr i ∧ (writesResults i = true ∨ i = .srst)) ∨ HardResetTaken s

/-- R17, R18: the frame, its extrema and FV are written only by `ASM` (and by a reset; when a hardware
reset is taken is the model's choice, log entry 11). -/
def Obligations.FrameWrittenOnlyByAsm : Prop :=
  ∀ s t : State, step s = .next t → t.regs.frame ≠ s.regs.frame →
    CommandTaken s 0x20000000 ∨ CommandTaken s 0x01000000 ∨ HardResetTaken s

/-- R19, R179: GRAY and GV are written only by `REMAP` (and by a reset; when a hardware reset is taken is the
model's choice, log entry 11); a new frame or range leaves them stale. -/
def Obligations.GrayWrittenOnlyByRemap : Prop :=
  ∀ s t : State, step s = .next t → t.regs.gray ≠ s.regs.gray →
    CommandTaken s 0x30000000 ∨ CommandTaken s 0x01000000 ∨ HardResetTaken s

/-- R21, R157: no command but `SRST` writes a control register. -/
def Obligations.CommandsLeaveControlRegisters : Prop :=
  ∀ (i : Instr) (s t : State), i ≠ .srst → exec i s = .next t →
    t.regs.srcsel = s.regs.srcsel ∧ t.regs.srcLo = s.regs.srcLo ∧ t.regs.srcHi = s.regs.srcHi ∧
    t.regs.tgtLo = s.regs.tgtLo ∧ t.regs.tgtHi = s.regs.tgtHi ∧ t.host = s.host

/-! ### Host port -/

/-- R41, R42, R23: what a host read of each address returns, the bus errors included. -/
def Obligations.RegisterMapReads : Prop :=
  ∀ r : Regs,
    r.hostRead 0x00 = .busError .accessDenied ∧
    r.hostRead 0x01 = .okData r.statusWord ∧
    r.hostRead 0x02 = .okData (if r.srcsel then 1 else 0) ∧
    r.hostRead 0x03 = (match r.res with | some v => .okData v.res0 | none => .busError .noValue) ∧
    r.hostRead 0x04 = (match r.res with | some v => .okData v.res1 | none => .busError .noValue) ∧
    r.hostRead 0x05 = .okData (r.srcLo.signExtend 32) ∧ r.hostRead 0x06 = .okData (r.srcHi.signExtend 32) ∧
    r.hostRead 0x07 = .okData (r.tgtLo.setWidth 32) ∧ r.hostRead 0x08 = .okData (r.tgtHi.setWidth 32) ∧
    r.hostRead 0x09 = (match r.frame with | some f => .okData (f.minv.signExtend 32) | none => .busError .noValue) ∧
    r.hostRead 0x0A = (match r.frame with | some f => .okData (f.minp.setWidth 32) | none => .busError .noValue) ∧
    r.hostRead 0x0B = (match r.frame with | some f => .okData (f.maxv.signExtend 32) | none => .busError .noValue) ∧
    r.hostRead 0x0C = (match r.frame with | some f => .okData (f.maxp.setWidth 32) | none => .busError .noValue) ∧
    (∀ n : Fin 64, r.hostRead (BitVec.ofNat 8 (0x40 + n.val)) =
      match r.frame with | some f => .okData (f.cells[n].signExtend 32) | none => .busError .noValue) ∧
    (∀ n : Fin 64, r.hostRead (BitVec.ofNat 8 (0x80 + n.val)) =
      match r.gray with | some g => .okData (g[n].setWidth 32) | none => .busError .noValue) ∧
    ∀ a : Addr, (0x0D ≤ a.toNat ∧ a.toNat ≤ 0x3F) ∨ 0xC0 ≤ a.toNat → r.hostRead a = .busError .unmapped

/-- R43, R137: a host read changes no state; the port answers it and goes on to the next input. -/
def Obligations.HostReadHasNoSideEffect : Prop :=
  ∀ (s : State) (a : Addr) (rest : List Input), s.host.pending = .read a :: rest →
    s.line.waiting = none → step s = .next { s with host := ⟨rest, s.host.responses ++ [s.regs.hostRead a]⟩ }

/-- R138, with the columns of R41 and the order of R42: a host write to any address but CMD. -/
def Obligations.HostWritesStoreOrAreDenied : Prop :=
  ∀ (s : State) (a : Addr) (d : Word) (rest : List Input), s.line.waiting = none →
    s.host.pending = .write a d :: rest →
    (a = 0x02 → step s = .next { s with
      regs := { s.regs with srcsel := d.getLsbD 0 }, host := ⟨rest, s.host.responses ++ [.ok]⟩ }) ∧
    (a = 0x05 → step s = .next { s with
      regs := { s.regs with srcLo := d.extractLsb' 0 16 }, host := ⟨rest, s.host.responses ++ [.ok]⟩ }) ∧
    (a = 0x06 → step s = .next { s with
      regs := { s.regs with srcHi := d.extractLsb' 0 16 }, host := ⟨rest, s.host.responses ++ [.ok]⟩ }) ∧
    (a = 0x07 → step s = .next { s with
      regs := { s.regs with tgtLo := d.extractLsb' 0 8 }, host := ⟨rest, s.host.responses ++ [.ok]⟩ }) ∧
    (a = 0x08 → step s = .next { s with
      regs := { s.regs with tgtHi := d.extractLsb' 0 8 }, host := ⟨rest, s.host.responses ++ [.ok]⟩ }) ∧
    (a = 0x01 ∨ a = 0x03 ∨ a = 0x04 ∨ (0x09 ≤ a.toNat ∧ a.toNat ≤ 0x0C) ∨ (0x40 ≤ a.toNat ∧ a.toNat ≤ 0xBF) →
      step s = .next { s with host := ⟨rest, s.host.responses ++ [.busError .accessDenied]⟩ }) ∧
    ((0x0D ≤ a.toNat ∧ a.toNat ≤ 0x3F) ∨ 0xC0 ≤ a.toNat →
      step s = .next { s with host := ⟨rest, s.host.responses ++ [.busError .unmapped]⟩ })

/-- R13, R15, R16: a control register reads back the bits it keeps, extended, and ignores the others. -/
def Obligations.ControlRegistersReadBack : Prop :=
  ∀ (s : State) (d : Word) (rest : List Input) (a : Addr) (v : Word),
    s.line.waiting = none → s.host.pending = .write a d :: .read a :: rest →
    (a = 0x02 ∧ v = (d.extractLsb' 0 1).setWidth 32) ∨
      ((a = 0x05 ∨ a = 0x06) ∧ v = (d.extractLsb' 0 16).signExtend 32) ∨
      ((a = 0x07 ∨ a = 0x08) ∧ v = (d.extractLsb' 0 8).setWidth 32) →
    ∃ t u, step s = .next t ∧ step t = .next u ∧ u.host = ⟨rest, s.host.responses ++ [.ok, .okData v]⟩ ∧
      u.regs.statusWord = s.regs.statusWord

/-- R42, R139: every command word's write that completes is answered `Ok`, whatever its outcome. -/
def Obligations.CommandWriteAnsweredOk : Prop :=
  ∀ (s t : State) (cw : Word) (rest : List Input), s.line.waiting = none →
    s.host.pending = .write 0x00 cw :: rest → step s = .next t → t.line.waiting = none →
    t.host = ⟨rest, s.host.responses ++ [.ok]⟩

/-- R42, R51: host transactions are taken one at a time, in order, and each that is completed gets one response. The
rest is the model's choice, for the spec leaves open how a reset is signalled (U15): that a hardware reset is an input
taken in its place among the transactions, that the inputs after it are kept, and that it gets no response
(log entry 11); and that with no input pending a step changes nothing (log entry 1). -/
def Obligations.InputsTakenInOrder : Prop :=
  ∀ s t : State, s.line.waiting = none → step s = .next t →
    (s.host.pending = [] → t = s) ∧
    ∀ (x : Input) (rest : List Input), s.host.pending = x :: rest →
      t.host.pending = rest ∧
      (x = .hardReset → t.host.responses = s.host.responses) ∧
      (x ≠ .hardReset → t.line.waiting = none → ∃ r, t.host.responses = s.host.responses ++ [r])

/-- R42, R153: "A transaction that ends in `BusError` changes no state of the core". -/
def Obligations.BusErrorChangesNothing : Prop :=
  ∀ (s t : State) (c : BusCause), step s = .next t →
    t.host.responses = s.host.responses ++ [.busError c] → t.regs = s.regs ∧ t.line = s.line

/-- R68: the expansions of the pseudo-instructions, and what they do. -/
def Obligations.PseudoInstructionsSetRanges : Prop :=
  ∀ (s : State) (lo hi : Int), s.line.waiting = none →
    (∃ xs, (ListingLine.srcman lo hi).expand = some xs ∧
      xs = [.write 0x05 (BitVec.ofInt 32 lo), .write 0x06 (BitVec.ofInt 32 hi), .write 0x02 1] ∧
      Sys2Proof.core.run 3 { s with host := { s.host with pending := xs } } = .next { s with
        regs := { s.regs with srcLo := BitVec.ofInt 16 lo, srcHi := BitVec.ofInt 16 hi, srcsel := true }
        host := ⟨[], s.host.responses ++ [.ok, .ok, .ok]⟩ }) ∧
    (∃ xs, ListingLine.srcauto.expand = some xs ∧ xs = [.write 0x02 0] ∧
      Sys2Proof.core.run 1 { s with host := { s.host with pending := xs } } = .next { s with
        regs := { s.regs with srcsel := false }
        host := ⟨[], s.host.responses ++ [.ok]⟩ }) ∧
    (0 ≤ lo ∧ lo ≤ 255 ∧ 0 ≤ hi ∧ hi ≤ 255 → ∃ xs, (ListingLine.tgt lo hi).expand = some xs ∧
      xs = [.write 0x07 (BitVec.ofInt 32 lo), .write 0x08 (BitVec.ofInt 32 hi)] ∧
      Sys2Proof.core.run 2 { s with host := { s.host with pending := xs } } = .next { s with
        regs := { s.regs with tgtLo := BitVec.ofInt 8 lo, tgtHi := BitVec.ofInt 8 hi }
        host := ⟨[], s.host.responses ++ [.ok, .ok]⟩ })

/-- R67: an operand in its range is the operand the command gets, and one outside it is an error of the listing. -/
def Obligations.ListingOperandsKeepTheirValue : Prop :=
  (∀ r : Int, 0 ≤ r ∧ r ≤ 4095 → ∃ raw : Raw12, (raw.toNat : Int) = r ∧ assemble (.dec12 r) = some (.dec12 raw) ∧
    assemble (.splitp r) = some (.splitp raw) ∧ assemble (.splitl r) = some (.splitl raw)) ∧
  (∀ r : Int, r < 0 ∨ 4095 < r →
    assemble (.dec12 r) = none ∧ assemble (.splitp r) = none ∧ assemble (.splitl r) = none) ∧
  (∀ v : Int, -32768 ≤ v ∧ v ≤ 32767 → ∃ imm : BitVec 16, imm.toInt = v ∧
    assemble (.enc12 v) = some (.enc12 imm) ∧ assemble (.rmp1 v) = some (.rmp1 imm)) ∧
  (∀ v : Int, v < -32768 ∨ 32767 < v → assemble (.enc12 v) = none ∧ assemble (.rmp1 v) = none) ∧
  (∀ a b : Int, 0 ≤ a ∧ a ≤ 255 ∧ 0 ≤ b ∧ b ≤ 255 → ∃ x y : Byte, (x.toNat : Int) = a ∧ (y.toNat : Int) = b ∧
    assemble (.decpx a b) = some (.decpx x y) ∧ assemble (.therm a b) = some (.therm x y)) ∧
  ∀ a b : Int, a < 0 ∨ 255 < a ∨ b < 0 ∨ 255 < b → assemble (.decpx a b) = none ∧ assemble (.therm a b) = none

/-! ### Invariants and progress -/

/-- R24: the frame invariant is kept by every step, from any state that has it. -/
def Obligations.StepKeepsFrameInvariant : Prop :=
  ∀ s t : State, FrameInv s → step s = .next t → FrameInv t

/-- R45, R176: every request the core ever issues is one of the 8 line reads of the pixel array, and a stuck core
waits for the answer to its last request. -/
def Obligations.StepKeepsRequestInvariants : Prop :=
  ∀ s t : State,
    (∀ q ∈ s.line.requests, ∃ i : Fin 8, q = ⟨i.val, BitVec.ofNat 8 (0x80 + 16 * i.val), 16⟩) →
    (∀ l, s.line.waiting = some l → s.line.requests.getLast? = some ⟨l, BitVec.ofNat 8 (0x80 + 16 * l), 16⟩) →
    step s = .next t →
    (∀ q ∈ t.line.requests, ∃ i : Fin 8, q = ⟨i.val, BitVec.ofNat 8 (0x80 + 16 * i.val), 16⟩) ∧
    ∀ l, t.line.waiting = some l → t.line.requests.getLast? = some ⟨l, BitVec.ofNat 8 (0x80 + 16 * l), 16⟩

/-- R24, R45: the invariants hold at reset, whatever the host then asks. -/
def Obligations.ResetMeetsInvariants : Prop :=
  ∀ xs : List Input, Inv { State.reset with host := { State.reset.host with pending := xs } }

/-- R139, R176, R181: no step ever stops, and a core comes to be stuck only where an `ASM` waits for a line that the
transport never answers. -/
def Obligations.StepSticksOnlyOnSilentTransport : Prop :=
  ∀ s : State, s.line.waiting = none →
    SafeStep s ∨ ∃ (t : State) (m : Fin 8), step s = .next t ∧ t.line.waiting = some m.val ∧
      CommandTaken s 0x20000000 ∧ s.line.upcoming m.val = .silent
end

