-- ==== Sys2Proof/Laws/State.lean ====
section
/-! SUPPORT. One lemma per field of the state and per update, so that no proof unfolds a record update. -/

namespace Sys2Proof.Machine

/-! ### `State.raise` -/

@[simp] theorem State.raise_regs (s : State) (d : Dest) (e : ErrCode) : (s.raise d e).regs = s.regs.raise d e := rfl
@[simp] theorem State.raise_host (s : State) (d : Dest) (e : ErrCode) : (s.raise d e).host = s.host := rfl
@[simp] theorem State.raise_line (s : State) (d : Dest) (e : ErrCode) : (s.raise d e).line = s.line := rfl

@[simp] theorem Regs.raise_err (r : Regs) (d : Dest) (e : ErrCode) : (r.raise d e).err = e := by cases d <;> rfl
@[simp] theorem Regs.raise_srcsel (r : Regs) (d : Dest) (e : ErrCode) : (r.raise d e).srcsel = r.srcsel := by
  cases d <;> rfl
@[simp] theorem Regs.raise_srcLo (r : Regs) (d : Dest) (e : ErrCode) : (r.raise d e).srcLo = r.srcLo := by
  cases d <;> rfl
@[simp] theorem Regs.raise_srcHi (r : Regs) (d : Dest) (e : ErrCode) : (r.raise d e).srcHi = r.srcHi := by
  cases d <;> rfl
@[simp] theorem Regs.raise_tgtLo (r : Regs) (d : Dest) (e : ErrCode) : (r.raise d e).tgtLo = r.tgtLo := by
  cases d <;> rfl
@[simp] theorem Regs.raise_tgtHi (r : Regs) (d : Dest) (e : ErrCode) : (r.raise d e).tgtHi = r.tgtHi := by
  cases d <;> rfl

@[simp] theorem Regs.raise_codec (r : Regs) (e : ErrCode) :
    r.raise .codec e = { r with res := none, err := e } := rfl
@[simp] theorem Regs.raise_rmp1 (r : Regs) (e : ErrCode) :
    r.raise .rmp1 e = { r with res := none, sat := false, err := e } := rfl
@[simp] theorem Regs.raise_frame (r : Regs) (e : ErrCode) :
    r.raise .frame e = { r with frame := none, err := e } := rfl
@[simp] theorem Regs.raise_gray (r : Regs) (e : ErrCode) :
    r.raise .gray e = { r with gray := none, sat := false, err := e } := rfl

/-! ### The completions -/

@[simp] theorem State.raiseIllegal_regs (s : State) :
    s.raiseIllegal.regs = { s.regs with err := .illegalCommand } := rfl
@[simp] theorem State.raiseIllegal_host (s : State) : s.raiseIllegal.host = s.host := rfl
@[simp] theorem State.raiseIllegal_line (s : State) : s.raiseIllegal.line = s.line := rfl

@[simp] theorem State.completeNone_regs (s : State) : s.completeNone.regs = { s.regs with err := .ok } := rfl
@[simp] theorem State.completeNone_host (s : State) : s.completeNone.host = s.host := rfl
@[simp] theorem State.completeNone_line (s : State) : s.completeNone.line = s.line := rfl

@[simp] theorem State.completeCodec_regs (s : State) (a b : Word) :
    (s.completeCodec a b).regs = { s.regs with res := some ⟨a, b⟩, err := .ok } := rfl
@[simp] theorem State.completeCodec_host (s : State) (a b : Word) : (s.completeCodec a b).host = s.host := rfl
@[simp] theorem State.completeCodec_line (s : State) (a b : Word) : (s.completeCodec a b).line = s.line := rfl

@[simp] theorem State.completeRmp1_regs (s : State) (a b : Word) (c : Bool) :
    (s.completeRmp1 a b c).regs = { s.regs with res := some ⟨a, b⟩, sat := c, err := .ok } := rfl
@[simp] theorem State.completeRmp1_host (s : State) (a b : Word) (c : Bool) :
    (s.completeRmp1 a b c).host = s.host := rfl
@[simp] theorem State.completeRmp1_line (s : State) (a b : Word) (c : Bool) :
    (s.completeRmp1 a b c).line = s.line := rfl

@[simp] theorem State.completeFrame_regs (s : State) (f : Frame) :
    (s.completeFrame f).regs = { s.regs with frame := some f, err := .ok } := rfl
@[simp] theorem State.completeFrame_host (s : State) (f : Frame) : (s.completeFrame f).host = s.host := rfl
@[simp] theorem State.completeFrame_line (s : State) (f : Frame) : (s.completeFrame f).line = s.line := rfl

@[simp] theorem State.completeGray_regs (s : State) (g : Vector Byte 64) (c : Bool) :
    (s.completeGray g c).regs = { s.regs with gray := some g, sat := c, err := .ok } := rfl
@[simp] theorem State.completeGray_host (s : State) (g : Vector Byte 64) (c : Bool) :
    (s.completeGray g c).host = s.host := rfl
@[simp] theorem State.completeGray_line (s : State) (g : Vector Byte 64) (c : Bool) :
    (s.completeGray g c).line = s.line := rfl

/-! ### Reset, control writes, the ports -/

@[simp] theorem State.resetRegs_regs (s : State) : s.resetRegs.regs = Regs.reset := rfl
@[simp] theorem State.resetRegs_host (s : State) : s.resetRegs.host = s.host := rfl
@[simp] theorem State.resetRegs_line (s : State) : s.resetRegs.line = s.line := rfl

@[simp] theorem State.hardReset_regs (s : State) : s.hardReset.regs = Regs.reset := rfl
@[simp] theorem State.hardReset_host (s : State) : s.hardReset.host = s.host := rfl
@[simp] theorem State.hardReset_line (s : State) : s.hardReset.line = s.line.endWait := rfl

@[simp] theorem State.waitForLine_regs (s : State) (l : Nat) : (s.waitForLine l).regs = s.regs := rfl
@[simp] theorem State.waitForLine_host (s : State) (l : Nat) : (s.waitForLine l).host = s.host := rfl
@[simp] theorem State.waitForLine_given (s : State) (l : Nat) : (s.waitForLine l).line.given = s.line.given := rfl
@[simp] theorem State.waitForLine_requests (s : State) (l : Nat) :
    (s.waitForLine l).line.requests = s.line.requests := rfl
@[simp] theorem State.waitForLine_waiting (s : State) (l : Nat) : (s.waitForLine l).line.waiting = some l := rfl

@[simp] theorem State.writeControl_regs (s : State) (l : Loc) (d : Word) :
    (s.writeControl l d).regs = s.regs.writeControl l d := rfl
@[simp] theorem State.writeControl_host (s : State) (l : Loc) (d : Word) : (s.writeControl l d).host = s.host := rfl
@[simp] theorem State.writeControl_line (s : State) (l : Loc) (d : Word) : (s.writeControl l d).line = s.line := rfl

@[simp] theorem State.respond_regs (s : State) (r : Response) : (s.respond r).regs = s.regs := rfl
@[simp] theorem State.respond_line (s : State) (r : Response) : (s.respond r).line = s.line := rfl
@[simp] theorem State.respond_pending (s : State) (r : Response) : (s.respond r).host.pending = s.host.pending := rfl
@[simp] theorem State.respond_responses (s : State) (r : Response) :
    (s.respond r).host.responses = s.host.responses ++ [r] := rfl

@[simp] theorem State.withPending_regs (s : State) (xs : List Input) : (s.withPending xs).regs = s.regs := rfl
@[simp] theorem State.withPending_line (s : State) (xs : List Input) : (s.withPending xs).line = s.line := rfl
@[simp] theorem State.withPending_pending (s : State) (xs : List Input) : (s.withPending xs).host.pending = xs := rfl
@[simp] theorem State.withPending_responses (s : State) (xs : List Input) :
    (s.withPending xs).host.responses = s.host.responses := rfl

@[simp] theorem LinePort.afterRequest_given (p : LinePort) (q : LineRequest) :
    (p.afterRequest q).given = p.given.tail := rfl
@[simp] theorem LinePort.afterRequest_requests (p : LinePort) (q : LineRequest) :
    (p.afterRequest q).requests = p.requests ++ [q] := rfl
@[simp] theorem LinePort.afterRequest_waiting (p : LinePort) (q : LineRequest) :
    (p.afterRequest q).waiting = p.waiting := rfl
@[simp] theorem LinePort.endWait_given (p : LinePort) : p.endWait.given = p.given := rfl
@[simp] theorem LinePort.endWait_requests (p : LinePort) : p.endWait.requests = p.requests := rfl
@[simp] theorem LinePort.endWait_waiting (p : LinePort) : p.endWait.waiting = none := rfl

end Sys2Proof.Machine
end

