-- ==== Sys2Proof/Laws/Ops.lean ====
section
/-! SUPPORT. One lemma per shared operation of Machine/Ops.lean: all it can do. -/

namespace Sys2Proof.Machine

/-- Every location is found at its own address. -/
theorem locate_addr (l : Loc) : locate l.addr = some l := by
  cases l with
  | frame n => revert n; decide
  | gray n => revert n; decide
  | _ => rfl

/-- `locate` finds a location only at its own address. -/
theorem addr_of_locate {a : Addr} {l : Loc} : locate a = some l → l.addr = a := by
  revert a
  have h : ∀ a : Addr, ∀ x ∈ locate a, x.addr = a := by decide +kernel
  intro a hl
  exact h a l hl

/-- A mapped address and its location determine each other. -/
theorem locate_eq_some_iff {a : Addr} {l : Loc} : locate a = some l ↔ a = l.addr :=
  ⟨fun h => (addr_of_locate h).symm, fun h => h ▸ locate_addr l⟩

/-- The unmapped addresses of R41. -/
theorem locate_eq_none_iff (a : Addr) :
    locate a = none ↔ (0x0D ≤ a.toNat ∧ a.toNat ≤ 0x3F) ∨ 0xC0 ≤ a.toNat := by
  revert a; decide +kernel

/-- What a host read of a mapped location answers. -/
theorem Regs.hostRead_addr (r : Regs) (l : Loc) :
    r.hostRead l.addr =
      if l.access = .writeOnly then .busError .accessDenied
      else match r.valueAt l with
        | none => .busError .noValue
        | some v => .okData v := by
  simp only [Regs.hostRead, locate_addr]
  cases l.access <;> cases r.valueAt l <;> rfl

/-- A host read of an unmapped address. -/
theorem Regs.hostRead_unmapped (r : Regs) {a : Addr} (h : locate a = none) :
    r.hostRead a = .busError .unmapped := by
  simp [Regs.hostRead, h]

/-- A control write changes no result, buffer, flag or outcome. -/
theorem Regs.writeControl_frame (r : Regs) (l : Loc) (d : Word) :
    (r.writeControl l d).err = r.err ∧ (r.writeControl l d).sat = r.sat ∧ (r.writeControl l d).res = r.res ∧
      (r.writeControl l d).frame = r.frame ∧ (r.writeControl l d).gray = r.gray := by
  cases l <;> simp [Regs.writeControl]

/-- The reply `k + 1` requests from now is the reply `k` requests from after the next one. -/
theorem LinePort.upcoming_afterRequest (p : LinePort) (q : LineRequest) (k : Nat) :
    (p.afterRequest q).upcoming k = p.upcoming (k + 1) := by
  simp only [LinePort.upcoming, LinePort.afterRequest_given, LinePort.afterRequest_requests, List.getElem?_tail,
    List.length_append, List.length_singleton]
  rw [show p.requests.length + 1 + k = p.requests.length + (k + 1) by omega]

/-- The requests of the 8 lines, written out (R45, R46). -/
theorem lineRequest_eq (i : Nat) : lineRequest i = ⟨i, BitVec.ofNat 8 (0x80 + 16 * i), 16⟩ := by
  simp [lineRequest, memRequest, Config.pixelBase, Config.lineBytes]

/-- `answerOk` goes on exactly where the command does, and adds the response `Ok` if the command has ended. -/
theorem answerOk_eq_next_iff (o : Host.Outcome State Fault Refusal) (t : State) :
    answerOk o = .next t ↔ ∃ u, o = .next u ∧ t = if u.line.waiting = none then u.respond .ok else u := by
  cases o <;> simp [answerOk, eq_comm]

end Sys2Proof.Machine
end

