-- ==== Sys2Proof/Laws/Exec.lean ====
section
/-! SUPPORT. Per meaning, what its outcome can be, so that a proof cites a case and does not unfold the meaning. -/

namespace Sys2Proof.Machine

/-- `ENC12` ends OK or with DomainError (R86). -/
theorem execEnc12_cases (imm16 : BitVec 16) (s : State) :
    (encode12 (immValue imm16) = none ∧ execEnc12 imm16 s = .next (s.raise .codec .domainError)) ∨
      ∃ raw, encode12 (immValue imm16) = some raw ∧ execEnc12 imm16 s = .next (s.completeCodec (zext raw.toNat) 0) := by
  cases h : encode12 (immValue imm16) <;> simp [execEnc12, h]

/-- `THERM` ends OK or with DomainError (R90). -/
theorem execTherm_cases (hi lo : Byte) (s : State) :
    (decodeTherm hi lo = none ∧ execTherm hi lo s = .next (s.raise .codec .domainError)) ∨
      ∃ q, decodeTherm hi lo = some q ∧
        execTherm hi lo s = .next (s.completeCodec (sext q) (zext (thermCombine hi lo))) := by
  cases h : decodeTherm hi lo <;> simp [execTherm, h]

/-- The three ends of `ASM` (R103, R107, R176). -/
theorem execAsm_cases (s : State) :
    (∃ lines p, readLines 8 s.line = (.blocks lines, p) ∧
        execAsm s = .next (State.completeFrame { s with line := p } (assembleFrame lines))) ∨
      (∃ e p, readLines 8 s.line = (.failed e, p) ∧ execAsm s = .next (State.raise { s with line := p } .frame e)) ∨
      ∃ l p, readLines 8 s.line = (.unanswered l, p) ∧ execAsm s = .next (State.waitForLine { s with line := p } l) := by
  cases h : readLines 8 s.line with
  | mk r p => cases r <;> simp [execAsm, h]

/-- Own range selected and no frame: there is no range (R123). -/
theorem Regs.ranges_eq_none_iff (r : Regs) : r.ranges = none ↔ r.srcsel = false ∧ r.frame = none := by
  unfold Regs.ranges
  cases r.srcsel <;> cases r.frame <;> simp

/-- The ends of `REMAP` (R125). -/
theorem execRemap_cases (s : State) :
    (s.regs.frame = none ∧ execRemap s = .next (s.raise .gray .noFrame)) ∨
      ∃ f g, s.regs.frame = some f ∧ s.regs.ranges = some g ∧
        ((g.sl = g.sh ∧ execRemap s = .next (s.raise .gray .degenerateRangeError)) ∨
          (g.sl ≠ g.sh ∧ execRemap s = .next (s.completeGray (grayOf g f) (anyClamps g f)))) := by
  cases hf : s.regs.frame with
  | none => simp [execRemap, hf]
  | some f =>
    cases hg : s.regs.ranges with
    | none => simp [Regs.ranges_eq_none_iff, hf] at hg
    | some g => by_cases he : g.sl = g.sh <;> simp [execRemap, hf, hg, he]

/-- The ends of `RMP1` (R126). -/
theorem execRmp1_cases (imm16 : BitVec 16) (s : State) :
    (s.regs.ranges = none ∧ execRmp1 imm16 s = .next (s.raise .rmp1 .noFrame)) ∨
      ∃ g, s.regs.ranges = some g ∧
        ((g.sl = g.sh ∧ execRmp1 imm16 s = .next (s.raise .rmp1 .degenerateRangeError)) ∨
          (g.sl ≠ g.sh ∧ execRmp1 imm16 s = .next (s.completeRmp1 (zext (g.intensity (immValue imm16)).toNat)
            (sext (g.truncated (immValue imm16))) (g.clamps (immValue imm16))))) := by
  cases hg : s.regs.ranges with
  | none => simp [execRmp1, hg]
  | some g => by_cases he : g.sl = g.sh <;> simp [execRmp1, hg, he]

/-- The ends of a command word's write (R65, R139). -/
theorem runCommand_cases (cw : Word) (s : State) :
    (∃ i, decode cw = .instr i ∧ runCommand cw s = answerOk (exec i s)) ∨
      ∃ why, decode cw = .illegal why ∧ runCommand cw s = .next (s.raiseIllegal.respond .ok) := by
  cases h : decode cw <;> simp [runCommand, h]

/-- The ends of a host write (R42): Unmapped, a command, AccessDenied, a control write. -/
theorem hostWrite_cases (a : Addr) (d : Word) (s : State) :
    (locate a = none ∧ hostWrite a d s = .next (s.respond (.busError .unmapped))) ∨
      (a = Loc.cmd.addr ∧ hostWrite a d s = runCommand d s) ∨
      ∃ l, a = l.addr ∧ l ≠ .cmd ∧
        ((l.access = .readOnly ∧ hostWrite a d s = .next (s.respond (.busError .accessDenied))) ∨
          (l.access = .readWrite ∧ hostWrite a d s = .next ((s.writeControl l d).respond .ok))) := by
  cases h : locate a with
  | none => simp [hostWrite, h]
  | some l =>
    have ha := (addr_of_locate h).symm
    cases l with
    | cmd => exact .inr (.inl ⟨ha, by simp [hostWrite, h]⟩)
    | frame n => exact .inr (.inr ⟨.frame n, ha, by simp, by simp [hostWrite, h, Loc.access]⟩)
    | gray n => exact .inr (.inr ⟨.gray n, ha, by simp, by simp [hostWrite, h, Loc.access]⟩)
    | _ => exact .inr (.inr ⟨_, ha, by simp, by simp [hostWrite, h, Loc.access]⟩)

end Sys2Proof.Machine
end

