-- ==== Sys2Proof/Laws/Codec.lean ====
section
/-! SUPPORT. The codec's functions and the width conversions, as integers: one lemma per function. -/

namespace Sys2Proof.Machine

/-- A sign-extended result is the integer it extends. -/
theorem sext_toInt {v : Int} (h : -2147483648 ≤ v ∧ v < 2147483648) : (sext v).toInt = v := by
  rw [sext, BitVec.toInt_ofInt, Int.bmod_def]
  split <;> omega

/-- A zero-extended result is the number it extends. -/
theorem zext_toNat {v : Nat} (h : v < 4294967296) : (zext v).toNat = v := by
  rw [zext, BitVec.toNat_ofNat]
  omega

/-- R80: the range of a decoded code. -/
theorem decode12_range (raw : Raw12) : -2048 ≤ decode12 raw ∧ decode12 raw ≤ 2047 := by
  have := raw.isLt
  unfold decode12
  split <;> omega

/-- R80: "`decode12` is `signed_12`". -/
theorem decode12_eq_toInt (raw : Raw12) : decode12 raw = raw.toInt := by
  have := raw.isLt
  rw [decode12, BitVec.toInt_eq_toNat_cond]
  split <;> split <;> omega

/-- A cell holds the quarter-degree integer it was made of (R17). -/
theorem cellValue_cellOf {q : Int} (h : -2048 ≤ q ∧ q ≤ 2047) : cellValue (cellOf q) = q := by
  rw [cellValue, cellOf, BitVec.toInt_ofInt, Int.bmod_def]
  split <;> omega

/-- R81: the error case. -/
theorem encode12_eq_none_iff (v : Int) : encode12 v = none ↔ v < -2048 ∨ 2047 < v := by
  unfold encode12
  constructor
  · intro h
    by_contra hn
    rw [if_neg (by omega)] at h
    split at h <;> cases h
  · intro h
    rw [if_pos (by omega)]

/-- R81: "On its legal domain `encode12(v) = v mod 4096`". -/
theorem encode12_eq_some {v : Int} {raw : Raw12} (h : encode12 v = some raw) :
    -2048 ≤ v ∧ v ≤ 2047 ∧ (raw.toNat : Int) = v % 4096 := by
  unfold encode12 at h
  by_cases hv : v < -2048 ∨ v > 2047
  · rw [if_pos hv] at h; cases h
  · rw [if_neg hv] at h
    refine ⟨by omega, by omega, ?_⟩
    split at h <;> cases h <;> simp <;> omega

/-- R82: the join, as a number. -/
theorem joinPixel_toNat (lo hi : Byte) : (joinPixel lo hi).toNat = hi.toNat % 16 * 256 + lo.toNat := by
  have h : joinPixel lo hi = (hi.extractLsb' 0 4 ++ lo : BitVec 12) := by
    apply BitVec.eq_of_getLsbD_eq
    intro i _
    simp only [joinPixel, BitVec.getLsbD_or, BitVec.getLsbD_shiftLeft, BitVec.getLsbD_setWidth, BitVec.getLsbD_and,
      BitVec.getLsbD_append, BitVec.getLsbD_extractLsb']
    interval_cases i <;> simp
  have := lo.isLt
  rw [h, BitVec.toNat_append, BitVec.extractLsb'_toNat, ← Nat.shiftLeft_add_eq_or_of_lt (by omega)]
  simp [Nat.shiftLeft_eq]

/-- R82: the pixel split, as numbers. -/
theorem splitPixel_toNat (raw : Raw12) :
    (splitPixel raw).1.toNat = raw.toNat / 256 ∧ (splitPixel raw).2.toNat = raw.toNat % 256 := by
  revert raw
  decide +kernel

/-- R83: the limit split, as numbers. -/
theorem splitLimit_toNat (raw : Raw12) :
    (splitLimit raw).1.toNat = raw.toNat / 512 ∧ (splitLimit raw).2.toNat = raw.toNat % 128 := by
  revert raw
  decide +kernel

/-- R84: with a high byte below 0x10 the combined value has 10 bits. -/
theorem thermCombine_lt {hi lo : Byte} (h : hi.toNat < 0x10) : thermCombine hi lo < 1024 := by
  have := lo.isLt
  unfold thermCombine
  omega

/-- R84: the error case. -/
theorem decodeTherm_eq_none_iff (hi lo : Byte) : decodeTherm hi lo = none ↔ 0x10 ≤ hi.toNat := by
  unfold decodeTherm
  constructor
  · intro h
    by_contra hn
    rw [if_neg hn] at h
    split at h <;> cases h
  · intro h
    rw [if_pos h]

/-- R84: the sign rule at 10 bits. -/
theorem decodeTherm_eq_some {hi lo : Byte} {q : Int} (h : decodeTherm hi lo = some q) :
    hi.toNat < 0x10 ∧ q = if thermCombine hi lo < 512 then (thermCombine hi lo : Int)
      else (thermCombine hi lo : Int) - 1024 := by
  unfold decodeTherm at h
  by_cases hh : hi.toNat ≥ 0x10
  · rw [if_pos hh] at h; cases h
  · rw [if_neg hh] at h
    refine ⟨by omega, ?_⟩
    split at h <;> cases h
    · rw [if_pos ‹_›]
    · rw [if_neg ‹_›]

end Sys2Proof.Machine
end

