-- ==== Sys2Proof/Laws/Decode.lean ====
section
/-! SUPPORT. The fields of an encoded word, one lemma per field and format (R62). -/

namespace Sys2Proof

/-- A command word is its four bytes' worth of fields: it is determined by its opcode and its operand field. -/
theorem word_ext {a b : Word} (ho : opcodeField a = opcodeField b) (hr : reservedN a = reservedN b) : a = b := by
  apply BitVec.eq_of_getLsbD_eq
  intro i hi
  by_cases h : i < 24
  · have := congrArg (fun w => w.getLsbD i) hr
    simpa [reservedN, BitVec.getLsbD_extractLsb', h] using this
  · have := congrArg (fun w => w.getLsbD (i - 24)) ho
    have h8 : i - 24 < 8 := by omega
    have ha : 24 + (i - 24) = i := by omega
    simpa [opcodeField, BitVec.getLsbD_extractLsb', h8, ha] using this

theorem opcodeField_encodeN (op : Byte) : opcodeField (encodeN op) = op := by
  apply BitVec.eq_of_getLsbD_eq
  intro i hi
  simp only [opcodeField, encodeN, BitVec.getLsbD_extractLsb', BitVec.getLsbD_append]
  interval_cases i <;> simp

theorem reservedN_encodeN (op : Byte) : reservedN (encodeN op) = 0 := by
  apply BitVec.eq_of_getLsbD_eq
  intro i hi
  simp only [reservedN, encodeN, BitVec.getLsbD_extractLsb', BitVec.getLsbD_append]
  interval_cases i <;> simp

theorem opcodeField_encodeR12 (op : Byte) (raw12 : Raw12) : opcodeField (encodeR12 op raw12) = op := by
  apply BitVec.eq_of_getLsbD_eq
  intro i hi
  simp only [opcodeField, encodeR12, BitVec.getLsbD_extractLsb', BitVec.getLsbD_append]
  interval_cases i <;> simp

theorem reservedR12_encodeR12 (op : Byte) (raw12 : Raw12) : reservedR12 (encodeR12 op raw12) = 0 := by
  apply BitVec.eq_of_getLsbD_eq
  intro i hi
  simp only [reservedR12, encodeR12, BitVec.getLsbD_extractLsb', BitVec.getLsbD_append]
  interval_cases i <;> simp

theorem raw12Field_encodeR12 (op : Byte) (raw12 : Raw12) : raw12Field (encodeR12 op raw12) = raw12 := by
  apply BitVec.eq_of_getLsbD_eq
  intro i hi
  simp only [raw12Field, encodeR12, BitVec.getLsbD_extractLsb', BitVec.getLsbD_append]
  interval_cases i <;> simp

theorem opcodeField_encodeS16 (op : Byte) (imm16 : BitVec 16) : opcodeField (encodeS16 op imm16) = op := by
  apply BitVec.eq_of_getLsbD_eq
  intro i hi
  simp only [opcodeField, encodeS16, BitVec.getLsbD_extractLsb', BitVec.getLsbD_append]
  interval_cases i <;> simp

theorem reserved16_encodeS16 (op : Byte) (imm16 : BitVec 16) : reserved16 (encodeS16 op imm16) = 0 := by
  apply BitVec.eq_of_getLsbD_eq
  intro i hi
  simp only [reserved16, encodeS16, BitVec.getLsbD_extractLsb', BitVec.getLsbD_append]
  interval_cases i <;> simp

theorem imm16Field_encodeS16 (op : Byte) (imm16 : BitVec 16) : imm16Field (encodeS16 op imm16) = imm16 := by
  apply BitVec.eq_of_getLsbD_eq
  intro i hi
  simp only [imm16Field, encodeS16, BitVec.getLsbD_extractLsb', BitVec.getLsbD_append]
  interval_cases i <;> simp

theorem opcodeField_encodeB2 (op hi lo : Byte) : opcodeField (encodeB2 op hi lo) = op := by
  apply BitVec.eq_of_getLsbD_eq
  intro i h
  simp only [opcodeField, encodeB2, BitVec.getLsbD_extractLsb', BitVec.getLsbD_append]
  interval_cases i <;> simp

theorem reserved16_encodeB2 (op hi lo : Byte) : reserved16 (encodeB2 op hi lo) = 0 := by
  apply BitVec.eq_of_getLsbD_eq
  intro i h
  simp only [reserved16, encodeB2, BitVec.getLsbD_extractLsb', BitVec.getLsbD_append]
  interval_cases i <;> simp

theorem hiField_encodeB2 (op hi lo : Byte) : hiField (encodeB2 op hi lo) = hi := by
  apply BitVec.eq_of_getLsbD_eq
  intro i h
  simp only [hiField, encodeB2, BitVec.getLsbD_extractLsb', BitVec.getLsbD_append]
  interval_cases i <;> simp

theorem loField_encodeB2 (op hi lo : Byte) : loField (encodeB2 op hi lo) = lo := by
  apply BitVec.eq_of_getLsbD_eq
  intro i h
  simp only [loField, encodeB2, BitVec.getLsbD_extractLsb', BitVec.getLsbD_append]
  interval_cases i <;> simp

/-- What `ifReservedZero` accepts (R62). -/
theorem ifReservedZero_eq_instr {n : Nat} {reserved : BitVec n} {i j : Instr}
    (h : ifReservedZero reserved j = .instr i) :
    reserved = 0 ∧ i = j := by
  unfold ifReservedZero at h
  split at h
  · cases h; exact ⟨‹_›, rfl⟩
  · cases h

/-- All the decoder can accept: per command, its opcode, its reserved field zero, and its operand fields (R61 to R64). -/
theorem decode_instr {cw : Word} {i : Instr} (h : decode cw = .instr i) :
    match i with
    | .nop => opcodeField cw = 0x00 ∧ reservedN cw = 0
    | .srst => opcodeField cw = 0x01 ∧ reservedN cw = 0
    | .dec12 raw12 => opcodeField cw = 0x10 ∧ reservedR12 cw = 0 ∧ raw12Field cw = raw12
    | .enc12 imm16 => opcodeField cw = 0x11 ∧ reserved16 cw = 0 ∧ imm16Field cw = imm16
    | .decpx lo hi => opcodeField cw = 0x12 ∧ reserved16 cw = 0 ∧ loField cw = lo ∧ hiField cw = hi
    | .splitp raw12 => opcodeField cw = 0x13 ∧ reservedR12 cw = 0 ∧ raw12Field cw = raw12
    | .splitl raw12 => opcodeField cw = 0x14 ∧ reservedR12 cw = 0 ∧ raw12Field cw = raw12
    | .therm hi lo => opcodeField cw = 0x15 ∧ reserved16 cw = 0 ∧ hiField cw = hi ∧ loField cw = lo
    | .asm => opcodeField cw = 0x20 ∧ reservedN cw = 0
    | .remap => opcodeField cw = 0x30 ∧ reservedN cw = 0
    | .rmp1 imm16 => opcodeField cw = 0x31 ∧ reserved16 cw = 0 ∧ imm16Field cw = imm16 := by
  unfold decode at h
  by_cases ho : opcodeField cw = 0x00
  · rw [if_pos ho] at h
    obtain ⟨hr, rfl⟩ := ifReservedZero_eq_instr h
    exact ⟨ho, hr⟩
  rw [if_neg ho] at h
  clear ho
  by_cases ho : opcodeField cw = 0x01
  · rw [if_pos ho] at h
    obtain ⟨hr, rfl⟩ := ifReservedZero_eq_instr h
    exact ⟨ho, hr⟩
  rw [if_neg ho] at h
  clear ho
  by_cases ho : opcodeField cw = 0x10
  · rw [if_pos ho] at h
    obtain ⟨hr, rfl⟩ := ifReservedZero_eq_instr h
    exact ⟨ho, hr, rfl⟩
  rw [if_neg ho] at h
  clear ho
  by_cases ho : opcodeField cw = 0x11
  · rw [if_pos ho] at h
    obtain ⟨hr, rfl⟩ := ifReservedZero_eq_instr h
    exact ⟨ho, hr, rfl⟩
  rw [if_neg ho] at h
  clear ho
  by_cases ho : opcodeField cw = 0x12
  · rw [if_pos ho] at h
    obtain ⟨hr, rfl⟩ := ifReservedZero_eq_instr h
    exact ⟨ho, hr, rfl, rfl⟩
  rw [if_neg ho] at h
  clear ho
  by_cases ho : opcodeField cw = 0x13
  · rw [if_pos ho] at h
    obtain ⟨hr, rfl⟩ := ifReservedZero_eq_instr h
    exact ⟨ho, hr, rfl⟩
  rw [if_neg ho] at h
  clear ho
  by_cases ho : opcodeField cw = 0x14
  · rw [if_pos ho] at h
    obtain ⟨hr, rfl⟩ := ifReservedZero_eq_instr h
    exact ⟨ho, hr, rfl⟩
  rw [if_neg ho] at h
  clear ho
  by_cases ho : opcodeField cw = 0x15
  · rw [if_pos ho] at h
    obtain ⟨hr, rfl⟩ := ifReservedZero_eq_instr h
    exact ⟨ho, hr, rfl, rfl⟩
  rw [if_neg ho] at h
  clear ho
  by_cases ho : opcodeField cw = 0x20
  · rw [if_pos ho] at h
    obtain ⟨hr, rfl⟩ := ifReservedZero_eq_instr h
    exact ⟨ho, hr⟩
  rw [if_neg ho] at h
  clear ho
  by_cases ho : opcodeField cw = 0x30
  · rw [if_pos ho] at h
    obtain ⟨hr, rfl⟩ := ifReservedZero_eq_instr h
    exact ⟨ho, hr⟩
  rw [if_neg ho] at h
  clear ho
  by_cases ho : opcodeField cw = 0x31
  · rw [if_pos ho] at h
    obtain ⟨hr, rfl⟩ := ifReservedZero_eq_instr h
    exact ⟨ho, hr, rfl⟩
  rw [if_neg ho] at h
  clear ho
  cases h

/-! ### A word from its fields -/

/-- A word is its opcode and its operand field (R61). -/
theorem word_eq_fields (cw : Word) : cw = opcodeField cw ++ reservedN cw := by
  apply BitVec.eq_of_getLsbD_eq
  intro i hi
  simp only [opcodeField, reservedN, BitVec.getLsbD_extractLsb', BitVec.getLsbD_append]
  by_cases h : i < 24
  · simp [h]
  · simp [h, show i - 24 < 8 by omega, show 24 + (i - 24) = i by omega]

/-- In format R12, with the reserved bits zero, the operand field is the 12-bit operand (R62). -/
theorem reservedN_of_reservedR12 {cw : Word} (h : reservedR12 cw = 0) : reservedN cw = 0#12 ++ raw12Field cw := by
  apply BitVec.eq_of_getLsbD_eq
  intro i hi
  have hz := congrArg (fun x => x.getLsbD (i - 12)) h
  simp only [reservedR12, BitVec.getLsbD_extractLsb'] at hz
  simp only [reservedN, raw12Field, BitVec.getLsbD_extractLsb', BitVec.getLsbD_append]
  by_cases h12 : i < 12
  · simp [h12, hi]
  · simp only [show i - 12 < 12 by omega, show 12 + (i - 12) = i by omega] at hz
    simpa [h12, hi] using hz

/-- In the formats S16 and B2, with the reserved bits zero, the operand field is the 16-bit field (R62). -/
theorem reservedN_of_reserved16 {cw : Word} (h : reserved16 cw = 0) : reservedN cw = 0#8 ++ imm16Field cw := by
  apply BitVec.eq_of_getLsbD_eq
  intro i hi
  have hz := congrArg (fun x => x.getLsbD (i - 16)) h
  simp only [reserved16, BitVec.getLsbD_extractLsb'] at hz
  simp only [reservedN, imm16Field, BitVec.getLsbD_extractLsb', BitVec.getLsbD_append]
  by_cases h16 : i < 16
  · simp [h16, hi]
  · simp only [show i - 16 < 8 by omega, show 16 + (i - 16) = i by omega] at hz
    simpa [h16, hi] using hz

/-- The two bytes of format B2 are the halves of the 16-bit field (R62). -/
theorem imm16Field_eq_bytes (cw : Word) : imm16Field cw = hiField cw ++ loField cw := by
  apply BitVec.eq_of_getLsbD_eq
  intro i hi
  simp only [imm16Field, hiField, loField, BitVec.getLsbD_extractLsb', BitVec.getLsbD_append]
  by_cases h : i < 8
  · simp [h, hi]
  · simp [h, hi, show i - 8 < 8 by omega, show 8 + (i - 8) = i by omega]

end Sys2Proof
end

