-- ==== Sys2Proof/Laws/Extrema.lean ====
section
/-! SUPPORT. What the min/max tracker (42_frame.md R102) has found after any number of pixels. -/

namespace Sys2Proof.Machine

/-- The position of the triple of cell `n` is `n` (R18: column in bits 2:0, row in bits 5:3). -/
theorem extremumAt_position (q : Cell) (n : Fin 64) : (extremumAt q n).position.toNat = n.val := by
  revert n
  simp only [extremumAt, Extremum.position]
  decide

/-- The tracker after the cells 0..k−1 of `w`: each triple is that of the first cell that attains its extremum. -/
structure TrackedUpTo (w : Vector Cell 64) (k : Nat) (t : Extrema) : Prop where
  mn : ∃ n : Fin 64, n.val < k ∧ t.mn = extremumAt w[n] n ∧
    (∀ m : Fin 64, m.val < k → cellValue w[n] ≤ cellValue w[m]) ∧
    ∀ m : Fin 64, m.val < n.val → cellValue w[n] < cellValue w[m]
  mx : ∃ n : Fin 64, n.val < k ∧ t.mx = extremumAt w[n] n ∧
    (∀ m : Fin 64, m.val < k → cellValue w[m] ≤ cellValue w[n]) ∧
    ∀ m : Fin 64, m.val < n.val → cellValue w[m] < cellValue w[n]

/-- One more pixel (R102). -/
theorem TrackedUpTo.track {w : Vector Cell 64} {n : Fin 64} {t : Extrema} (h : TrackedUpTo w n.val t) :
    TrackedUpTo w (n.val + 1) (t.track w[n] n) := by
  obtain ⟨⟨a, ha, ea, la, fa⟩, ⟨b, hb, eb, lb, fb⟩⟩ := h
  refine ⟨?_, ?_⟩
  · by_cases hc : cellValue w[n] < cellValue w[a]
    · refine ⟨n, by omega, by simp only [Extrema.track, ea]; exact if_pos hc, fun m hm => ?_, fun m hm => ?_⟩
      · by_cases hmn : m = n
        · rw [hmn]
        · have := la m (by omega); omega
      · have := la m hm; omega
    · refine ⟨a, by omega, by simp only [Extrema.track, ea]; exact if_neg hc, fun m hm => ?_, fa⟩
      by_cases hmn : m = n
      · rw [hmn]; omega
      · exact la m (by omega)
  · by_cases hc : cellValue w[n] > cellValue w[b]
    · refine ⟨n, by omega, by simp only [Extrema.track, eb]; exact if_pos hc, fun m hm => ?_, fun m hm => ?_⟩
      · by_cases hmn : m = n
        · rw [hmn]
        · have := lb m (by omega); omega
      · have := lb m hm; omega
    · refine ⟨b, by omega, by simp only [Extrema.track, eb]; exact if_neg hc, fun m hm => ?_, fb⟩
      by_cases hmn : m = n
      · rw [hmn]; omega
      · exact lb m (by omega)

/-- A run of consecutive pixels. -/
theorem TrackedUpTo.foldl {w : Vector Cell 64} (l : List (Fin 64)) (k : Nat) (t : Extrema)
    (hl : ∀ i (hi : i < l.length), (l[i]).val = k + i) (h : TrackedUpTo w k t) :
    TrackedUpTo w (k + l.length) (l.foldl (fun t n => t.track w[n] n) t) := by
  induction l generalizing k t with
  | nil => exact h
  | cons n l ih =>
    have h0 := hl 0 (by simp)
    simp only [List.getElem_cons_zero, Nat.add_zero] at h0
    subst h0
    have := ih (n.val + 1) (t.track w[n] n)
      (fun i hi => by have := hl (i + 1) (by simp; omega); simp at this; omega) h.track
    rwa [List.length_cons, Nat.add_comm l.length 1, ← Nat.add_assoc]

/-- All `scanExtrema` says (R102): the extrema of the 64 cells, each at its first cell in scan order. -/
theorem scanExtrema_tracked (w : Vector Cell 64) : TrackedUpTo w 64 (scanExtrema w) := by
  have first : TrackedUpTo w 1 (trackFirst w[0]) := by
    have z : ∀ m : Fin 64, m.val < 1 → m = 0 := fun m hm => by omega
    refine ⟨?_, ?_⟩
    · exact ⟨0, by decide, rfl, fun m hm => by rw [z m hm], fun m hm => absurd hm (by simp)⟩
    · exact ⟨0, by decide, rfl, fun m hm => by rw [z m hm], fun m hm => absurd hm (by simp)⟩
  simpa [scanExtrema] using first.foldl (List.finRange 64).tail 1 _ (by decide)

end Sys2Proof.Machine
end

