-- ==== Sys2Proof/Laws/Lines.lean ====
section
/-! SUPPORT. The line reads of `ASM`: one lemma per way they end, and the indexed form of the matrix and the
extrema. -/

namespace Sys2Proof.Machine

/-- The first `n` replies are lines of 16 bytes. -/
def LinePort.GoodLines (p : LinePort) (n : Nat) (b : Nat → Block) : Prop :=
  ∀ i < n, p.upcoming i = .bytes (b i).toList

/-- The port after the requests of the lines 0..n−1. -/
def LinePort.afterLines (p : LinePort) (n : Nat) : LinePort :=
  { p with given := p.given.drop n, requests := p.requests ++ (List.range n).map lineRequest }

@[simp] theorem LinePort.afterLines_zero (p : LinePort) : p.afterLines 0 = p := by
  simp [LinePort.afterLines]

theorem LinePort.afterLines_succ (p : LinePort) (n : Nat) :
    (p.afterLines n).afterRequest (lineRequest n) = p.afterLines (n + 1) := by
  simp [LinePort.afterLines, LinePort.afterRequest, List.range_succ, List.tail_drop]

theorem LinePort.upcoming_afterLines (p : LinePort) (n k : Nat) :
    (p.afterLines n).upcoming k = p.upcoming (n + k) := by
  simp [LinePort.afterLines, LinePort.upcoming, List.getElem?_drop, Nat.add_assoc]

/-- A 16-byte answer is a block (R101). -/
theorem lineResult_block (b : Block) : lineResult (.bytes b.toList) = .block b := by
  simp [lineResult, Vector.toList]

/-- A reply is a block exactly when it is 16 bytes. -/
theorem lineResult_eq_block_iff (r : LineReply) (b : Block) : lineResult r = .block b ↔ r = .bytes b.toList := by
  constructor
  · intro h
    cases r with
    | bytes l =>
      simp only [lineResult] at h
      split at h
      · cases h
      · split at h
        · cases h
        · cases h; simp
    | transportError => cases h
    | silent => cases h
  · rintro rfl; exact lineResult_block b

/-- A reply that is an error outcome (R104 to R106). -/
theorem lineResult_eq_failed_iff (r : LineReply) (e : ErrCode) :
    lineResult r = .failed e ↔
      (r = .transportError ∧ e = .transportError) ∨
        ∃ l, r = .bytes l ∧ ((l.length < 16 ∧ e = .shortReadError) ∨ (16 < l.length ∧ e = .lengthError)) := by
  cases r with
  | bytes l =>
    simp only [lineResult]
    split
    · rename_i h; simp [eq_comm, h]; omega
    · split
      · rename_i h; simp [eq_comm, h]; omega
      · simp; omega
  | transportError => simp [lineResult, eq_comm]
  | silent => simp [lineResult]

/-- A reply that never comes (R176). -/
theorem lineResult_eq_unanswered_iff (r : LineReply) : lineResult r = .unanswered ↔ r = .silent := by
  cases r with
  | bytes l =>
    simp only [lineResult]
    split
    · simp
    · split <;> simp
  | transportError => simp [lineResult]
  | silent => simp [lineResult]

/-- All `n` lines good: their blocks, in order (R103). -/
theorem readLines_good {p : LinePort} {n : Nat} {b : Nat → Block} (h : p.GoodLines n b) :
    readLines n p = (.blocks (Vector.ofFn fun i : Fin n => b i.val), p.afterLines n) := by
  induction n with
  | zero => simp [readLines]
  | succ n ih =>
    have hn : p.upcoming n = .bytes (b n).toList := h n (by omega)
    rw [readLines, ih fun i hi => h i (by omega)]
    simp only [LinePort.upcoming_afterLines, Nat.add_zero, hn, lineResult_block, LinePort.afterLines_succ]
    congr 2
    apply Vector.ext
    intro i hi
    simp only [Vector.getElem_push, Vector.getElem_ofFn]
    split
    · rfl
    · congr 1; omega

/-- Once a prefix ends in an error outcome, no later line is read (R107). -/
theorem readLines_failed_of_prefix {p p' : LinePort} {m : Nat} {e : ErrCode}
    (h : readLines m p = (.failed e, p')) (n : Nat) (hn : m ≤ n) : readLines n p = (.failed e, p') := by
  induction n, hn using Nat.le_induction with
  | base => exact h
  | succ n _ ih => rw [readLines, ih]

/-- Once a prefix is stuck, nothing more happens (R176). -/
theorem readLines_unanswered_of_prefix {p p' : LinePort} {m l : Nat}
    (h : readLines m p = (.unanswered l, p')) (n : Nat) (hn : m ≤ n) : readLines n p = (.unanswered l, p') := by
  induction n, hn using Nat.le_induction with
  | base => exact h
  | succ n _ ih => rw [readLines, ih]

/-- Line `m` is the first that fails (R107, R108). -/
theorem readLines_failed {p : LinePort} {m n : Nat} {b : Nat → Block} {e : ErrCode} (hm : m < n)
    (h : p.GoodLines m b) (he : lineResult (p.upcoming m) = .failed e) :
    readLines n p = (.failed e, p.afterLines (m + 1)) := by
  apply readLines_failed_of_prefix (m := m + 1) _ n hm
  rw [readLines, readLines_good h]
  simp only [LinePort.upcoming_afterLines, Nat.add_zero, he, LinePort.afterLines_succ]

/-- Line `m` is the first that is not answered (R176). -/
theorem readLines_unanswered {p : LinePort} {m n : Nat} {b : Nat → Block} (hm : m < n)
    (h : p.GoodLines m b) (he : p.upcoming m = .silent) :
    readLines n p = (.unanswered m, p.afterLines (m + 1)) := by
  apply readLines_unanswered_of_prefix (m := m + 1) _ n hm
  rw [readLines, readLines_good h]
  simp [LinePort.upcoming_afterLines, he, lineResult, LinePort.afterLines_succ]

/-- Everything `readLines` can do (R103 to R108, R176). -/
theorem readLines_cases (n : Nat) (p : LinePort) :
    ∃ b : Nat → Block,
      p.GoodLines n b ∨
        ∃ m < n, p.GoodLines m b ∧ (p.upcoming m = .silent ∨ ∃ e, lineResult (p.upcoming m) = .failed e) := by
  induction n with
  | zero => exact ⟨fun _ => Vector.replicate 16 0, .inl fun i hi => absurd hi (by omega)⟩
  | succ n ih =>
    obtain ⟨b, h | ⟨m, hm, h⟩⟩ := ih
    · cases hr : lineResult (p.upcoming n) with
      | failed e => exact ⟨b, .inr ⟨n, by omega, h, .inr ⟨e, hr⟩⟩⟩
      | unanswered => exact ⟨b, .inr ⟨n, by omega, h, .inl ((lineResult_eq_unanswered_iff _).1 hr)⟩⟩
      | block c =>
        refine ⟨fun i => if i = n then c else b i, .inl fun i hi => ?_⟩
        by_cases hin : i = n
        · subst hin; simpa using (lineResult_eq_block_iff _ _).1 hr
        · simpa [hin] using h i (by omega)
    · exact ⟨b, .inr ⟨m, by omega, h⟩⟩

end Sys2Proof.Machine
end

