-- ==== Sys2Proof/Laws/PerInstr.lean ====
section
/-! SUPPORT. Statements per command, one lemma for each constructor of `Instr`. -/

namespace Sys2Proof

/-- The fixed bits of a format N word (R62). -/
theorem encodeN_and_mask (op : Byte) : encodeN op &&& 0xFFFFFFFF = op ++ 0#24 := by
  apply BitVec.eq_of_getLsbD_eq
  intro i hi
  simp only [encodeN, BitVec.getLsbD_and, BitVec.getLsbD_append]
  interval_cases i <;> simp

/-- The fixed bits of a format R12 word (R62). -/
theorem encodeR12_and_mask (op : Byte) (raw12 : Raw12) : encodeR12 op raw12 &&& 0xFFFFF000 = op ++ 0#24 := by
  apply BitVec.eq_of_getLsbD_eq
  intro i hi
  simp only [encodeR12, BitVec.getLsbD_and, BitVec.getLsbD_append]
  interval_cases i <;> simp

/-- The fixed bits of a format S16 word (R62). -/
theorem encodeS16_and_mask (op : Byte) (imm16 : BitVec 16) : encodeS16 op imm16 &&& 0xFFFF0000 = op ++ 0#24 := by
  apply BitVec.eq_of_getLsbD_eq
  intro i hi
  simp only [encodeS16, BitVec.getLsbD_and, BitVec.getLsbD_append]
  interval_cases i <;> simp

/-- The fixed bits of a format B2 word (R62). -/
theorem encodeB2_and_mask (op hi lo : Byte) : encodeB2 op hi lo &&& 0xFFFF0000 = op ++ 0#24 := by
  apply BitVec.eq_of_getLsbD_eq
  intro i h
  simp only [encodeB2, BitVec.getLsbD_and, BitVec.getLsbD_append]
  interval_cases i <;> simp

namespace Laws.EncodeMatchesRow

/-- The word of a command matches the command's own row of R64's table, and that row is in the table. -/
def Statement (i : Instr) : Prop := i.row.accepts (encode i) = true ∧ i.row ∈ opcodeTable

theorem nop : Statement .nop := by constructor <;> decide

theorem srst : Statement .srst := by constructor <;> decide

theorem dec12 (raw12 : Raw12) : Statement (.dec12 raw12) := by
  refine ⟨?_, by simp [opcodeTable, Instr.row]⟩
  show (encodeR12 0x10 raw12 &&& 0xFFFFF000 == 0x10000000) = true
  rw [encodeR12_and_mask]
  rfl

theorem enc12 (imm16 : BitVec 16) : Statement (.enc12 imm16) := by
  refine ⟨?_, by simp [opcodeTable, Instr.row]⟩
  show (encodeS16 0x11 imm16 &&& 0xFFFF0000 == 0x11000000) = true
  rw [encodeS16_and_mask]
  rfl

theorem decpx (lo hi : Byte) : Statement (.decpx lo hi) := by
  refine ⟨?_, by simp [opcodeTable, Instr.row]⟩
  show (encodeB2 0x12 hi lo &&& 0xFFFF0000 == 0x12000000) = true
  rw [encodeB2_and_mask]
  rfl

theorem splitp (raw12 : Raw12) : Statement (.splitp raw12) := by
  refine ⟨?_, by simp [opcodeTable, Instr.row]⟩
  show (encodeR12 0x13 raw12 &&& 0xFFFFF000 == 0x13000000) = true
  rw [encodeR12_and_mask]
  rfl

theorem splitl (raw12 : Raw12) : Statement (.splitl raw12) := by
  refine ⟨?_, by simp [opcodeTable, Instr.row]⟩
  show (encodeR12 0x14 raw12 &&& 0xFFFFF000 == 0x14000000) = true
  rw [encodeR12_and_mask]
  rfl

theorem therm (hi lo : Byte) : Statement (.therm hi lo) := by
  refine ⟨?_, by simp [opcodeTable, Instr.row]⟩
  show (encodeB2 0x15 hi lo &&& 0xFFFF0000 == 0x15000000) = true
  rw [encodeB2_and_mask]
  rfl

theorem asm : Statement .asm := by constructor <;> decide

theorem remap : Statement .remap := by constructor <;> decide

theorem rmp1 (imm16 : BitVec 16) : Statement (.rmp1 imm16) := by
  refine ⟨?_, by simp [opcodeTable, Instr.row]⟩
  show (encodeS16 0x31 imm16 &&& 0xFFFF0000 == 0x31000000) = true
  rw [encodeS16_and_mask]
  rfl

end Laws.EncodeMatchesRow
end Sys2Proof
end

