-- ==== Sys2Proof/Laws/Step.lean ====
section
/-! SUPPORT. All a command and a step can do, said once, so that no proof about `step` unfolds it. -/

namespace Sys2Proof.Machine

/-- Every command but `ASM` ends and leaves both ports alone (R46, R139). -/
theorem exec_of_ne_asm (i : Instr) (s : State) (h : i ≠ .asm) :
    ∃ t, exec i s = .next t ∧ t.line = s.line ∧ t.host = s.host := by
  cases i with
  | asm => exact absurd rfl h
  | enc12 v => rcases execEnc12_cases v s with ⟨_, h⟩ | ⟨_, _, h⟩ <;> exact ⟨_, h, rfl, rfl⟩
  | therm a b => rcases execTherm_cases a b s with ⟨_, h⟩ | ⟨_, _, h⟩ <;> exact ⟨_, h, rfl, rfl⟩
  | remap =>
    rcases execRemap_cases s with ⟨_, h⟩ | ⟨_, _, _, _, ⟨_, h⟩ | ⟨_, h⟩⟩ <;> exact ⟨_, h, rfl, rfl⟩
  | rmp1 v => rcases execRmp1_cases v s with ⟨_, h⟩ | ⟨_, _, ⟨_, h⟩ | ⟨_, h⟩⟩ <;> exact ⟨_, h, rfl, rfl⟩
  | _ => exact ⟨_, rfl, rfl, rfl⟩

/-- No command touches the host port: the response is the port's, after the command. -/
theorem exec_host {i : Instr} {s t : State} (h : exec i s = .next t) : t.host = s.host := by
  by_cases ha : i = .asm
  · subst ha
    rcases execAsm_cases s with ⟨l, p, _, hx⟩ | ⟨e, p, _, hx⟩ | ⟨l, p, _, hx⟩ <;>
      simp only [exec, hx] at h <;> cases h <;> rfl
  · obtain ⟨u, hu, _, hh⟩ := exec_of_ne_asm i s ha
    rw [hu] at h
    cases h
    exact hh

/-- CMD is the location of address 0 alone. -/
theorem Loc.addr_ne_zero {l : Loc} (h : l ≠ .cmd) : l.addr ≠ 0x00 := fun ha =>
  h (Option.some.inj ((locate_addr l).symm.trans (ha ▸ locate_addr .cmd)))

/-- Everything a step that goes on can have done (R42, R51, R65, R139, R176). -/
theorem step_cases {s t : State} (h : step s = .next t) :
    (∃ l, s.line.waiting = some l ∧ t = awaitReset s) ∨
    s.line.waiting = none ∧
    ((s.host.pending = [] ∧ t = s) ∨
    (∃ a rest, s.host.pending = .read a :: rest ∧ t = (s.withPending rest).respond (s.regs.hostRead a)) ∨
    (∃ rest, s.host.pending = .hardReset :: rest ∧ t = (s.withPending rest).hardReset) ∨
    (∃ cw rest, s.host.pending = .write 0x00 cw :: rest ∧
      ((∃ i u, decode cw = .instr i ∧ exec i (s.withPending rest) = .next u ∧
          t = if u.line.waiting = none then u.respond .ok else u) ∨
        ∃ why, decode cw = .illegal why ∧ t = (s.withPending rest).raiseIllegal.respond .ok)) ∨
    ∃ a d rest, s.host.pending = .write a d :: rest ∧ a ≠ 0x00 ∧
      ((∃ c, t = (s.withPending rest).respond (.busError c)) ∨
        ∃ l, t = ((s.withPending rest).writeControl l d).respond .ok)) := by
  rw [step, takeInput] at h
  cases hw : s.line.waiting with
  | some l => rw [hw] at h; cases h; exact .inl ⟨l, rfl, rfl⟩
  | none =>
  rw [hw] at h
  refine .inr ⟨rfl, ?_⟩
  cases hp : s.host.pending with
  | nil => rw [hp] at h; cases h; exact .inl ⟨rfl, rfl⟩
  | cons x rest =>
    rw [hp] at h
    cases x with
    | read a => cases h; exact .inr (.inl ⟨a, rest, rfl, rfl⟩)
    | hardReset => cases h; exact .inr (.inr (.inl ⟨rest, rfl, rfl⟩))
    | write a d =>
      simp only [serve] at h
      rcases hostWrite_cases a d (s.withPending rest) with ⟨hl, hx⟩ | ⟨ha, hx⟩ | ⟨l, ha, hl, ⟨_, hx⟩ | ⟨_, hx⟩⟩ <;>
        rw [hx] at h
      · cases h
        exact .inr (.inr (.inr (.inr ⟨a, d, rest, rfl, by rintro rfl; simp [locate] at hl, .inl ⟨_, rfl⟩⟩)))
      · subst ha
        rcases runCommand_cases d (s.withPending rest) with ⟨i, hd, hx⟩ | ⟨w, hd, hx⟩ <;> rw [hx] at h
        · obtain ⟨u, hu, rfl⟩ := (answerOk_eq_next_iff _ _).1 h
          exact .inr (.inr (.inr (.inl ⟨d, rest, rfl, .inl ⟨i, u, hd, hu, rfl⟩⟩)))
        · cases h
          exact .inr (.inr (.inr (.inl ⟨d, rest, rfl, .inr ⟨w, hd, rfl⟩⟩)))
      · cases h
        exact .inr (.inr (.inr (.inr ⟨a, d, rest, rfl, ha ▸ Loc.addr_ne_zero hl, .inl ⟨_, rfl⟩⟩)))
      · cases h
        exact .inr (.inr (.inr (.inr ⟨a, d, rest, rfl, ha ▸ Loc.addr_ne_zero hl, .inr ⟨l, rfl⟩⟩)))

end Sys2Proof.Machine
end

