-- ==== Sys2Proof/Machine/ListingText.lean ====
section
/-! DEFINITION. The text of a listing line (30_encoding.md R67 to R69), read from its characters. Blanks around
mnemonics, operands and commas are skipped; the spec does not speak of them (log entry 16). -/

namespace Sys2Proof.Machine
namespace ListingText

def isBlank (c : Char) : Bool := c == ' ' || c == '\t'

/-- A text without the blanks at its two ends. -/
def trim (cs : List Char) : List Char :=
  ((cs.dropWhile isBlank).reverse.dropWhile isBlank).reverse

/-- The pieces of a text between occurrences of a separator. -/
def pieces (sep : Char) : List Char → List (List Char)
  | [] => [[]]
  | c :: cs =>
    if c == sep then [] :: pieces sep cs
    else
      match pieces sep cs with
      | [] => [[c]]
      | p :: ps => (c :: p) :: ps

/-- The value of a digit below 16, in either case. -/
def digitValue (c : Char) : Option Nat :=
  if '0' ≤ c ∧ c ≤ '9' then some (c.toNat - '0'.toNat)
  else if 'a' ≤ c ∧ c ≤ 'f' then some (c.toNat - 'a'.toNat + 10)
  else if 'A' ≤ c ∧ c ≤ 'F' then some (c.toNat - 'A'.toNat + 10)
  else none

/-- The value of a digit string after `acc`. -/
def digitsFrom (base : Nat) (acc : Nat) : List Char → Option Nat
  | [] => some acc
  | c :: cs =>
    match digitValue c with
    | some d => if d < base then digitsFrom base (acc * base + d) cs else none
    | none => none

/-- The value of a non-empty digit string. -/
def digits (base : Nat) (cs : List Char) : Option Nat :=
  if cs.isEmpty then none else digitsFrom base 0 cs

/-- A number without a sign: decimal, or hexadecimal with the prefix `0x` (R67). -/
def unsignedNumber (cs : List Char) : Option Int :=
  match trim cs with
  | '0' :: 'x' :: hs => (digits 16 hs).map fun v => (v : Int)
  | ds => (digits 10 ds).map fun v => (v : Int)

/-- "a decimal number may carry a minus sign where the operand is signed" (R67). -/
def signedNumber (cs : List Char) : Option Int :=
  match trim cs with
  | '-' :: ds => (digits 10 ds).map fun v => -(v : Int)
  | ds => unsignedNumber ds

/-- `FRAME[n]` and `GRAY[n]` (R69): the index between the brackets, below 64. -/
def cellIndex (cs : List Char) : Option (Fin 64) :=
  match cs.reverse with
  | ']' :: rs =>
    match digits 10 rs.reverse with
    | some n => if h : n < 64 then some ⟨n, h⟩ else none
    | none => none
  | _ => none

/-- A register name of R41 (R69). -/
def locName (cs : List Char) : Option Loc :=
  match trim cs with
  | ['C', 'M', 'D'] => some .cmd
  | ['S', 'T', 'A', 'T', 'U', 'S'] => some .status
  | ['C', 'T', 'R', 'L'] => some .ctrl
  | ['R', 'E', 'S', '0'] => some .res0
  | ['R', 'E', 'S', '1'] => some .res1
  | ['S', 'R', 'C', '_', 'L', 'O'] => some .srcLo
  | ['S', 'R', 'C', '_', 'H', 'I'] => some .srcHi
  | ['T', 'G', 'T', '_', 'L', 'O'] => some .tgtLo
  | ['T', 'G', 'T', '_', 'H', 'I'] => some .tgtHi
  | ['M', 'I', 'N', 'V'] => some .minv
  | ['M', 'I', 'N', 'P'] => some .minp
  | ['M', 'A', 'X', 'V'] => some .maxv
  | ['M', 'A', 'X', 'P'] => some .maxp
  | 'F' :: 'R' :: 'A' :: 'M' :: 'E' :: '[' :: cs => (cellIndex cs).map .frame
  | 'G' :: 'R' :: 'A' :: 'Y' :: '[' :: cs => (cellIndex cs).map .gray
  | _ => none

/-- The response a `RD` line expects (R69): data, or `BusError(cause)`. -/
def response (cs : List Char) : Option Response :=
  if trim cs = "BusError(Unmapped)".toList then some (.busError .unmapped)
  else if trim cs = "BusError(AccessDenied)".toList then some (.busError .accessDenied)
  else if trim cs = "BusError(NoValue)".toList then some (.busError .noValue)
  else (signedNumber cs).map fun v => .okData (BitVec.ofInt 32 v)

/-- `RD name` or `RD name -> response` (R69). -/
def rdLine (cs : List Char) : Option ListingLine :=
  match pieces '>' cs with
  | [name] => (locName name).map fun l => .rd l none
  | [left, right] =>
    match left.reverse with
    | '-' :: name =>
      match locName name.reverse, response right with
      | some l, some r => some (.rd l (some r))
      | _, _ => none
    | _ => none
  | _ => none

/-- A line with one operand. -/
def withOne (number : List Char → Option Int) (line : Int → ListingLine) (ops : List (List Char)) :
    Option ListingLine :=
  match ops with
  | [a] => (number a).map line
  | _ => none

/-- A line with two operands. -/
def withTwo (number : List Char → Option Int) (line : Int → Int → ListingLine) (ops : List (List Char)) :
    Option ListingLine :=
  match ops with
  | [a, b] =>
    match number a, number b with
    | some x, some y => some (line x y)
    | _, _ => none
  | _ => none

/-- `WR name, value` (R69). -/
def wrLine (ops : List (List Char)) : Option ListingLine :=
  match ops with
  | [name, value] =>
    match locName name, signedNumber value with
    | some l, some v => some (.wr l v)
    | _, _ => none
  | _ => none

/-- A line without operands. -/
def withNone (line : ListingLine) (rest : List Char) : Option ListingLine :=
  if rest.isEmpty then some line else none

/-- The line whose mnemonic and operand text are given (R67 to R69). -/
def lineOf (mnemonic rest : List Char) : Option ListingLine :=
  if mnemonic = "NOP".toList then withNone (.cmd .nop) rest
  else if mnemonic = "SRST".toList then withNone (.cmd .srst) rest
  else if mnemonic = "ASM".toList then withNone (.cmd .asm) rest
  else if mnemonic = "REMAP".toList then withNone (.cmd .remap) rest
  else if mnemonic = "DEC12".toList then withOne unsignedNumber (fun r => .cmd (.dec12 r)) (pieces ',' rest)
  else if mnemonic = "SPLITP".toList then withOne unsignedNumber (fun r => .cmd (.splitp r)) (pieces ',' rest)
  else if mnemonic = "SPLITL".toList then withOne unsignedNumber (fun r => .cmd (.splitl r)) (pieces ',' rest)
  else if mnemonic = "ENC12".toList then withOne signedNumber (fun v => .cmd (.enc12 v)) (pieces ',' rest)
  else if mnemonic = "RMP1".toList then withOne signedNumber (fun v => .cmd (.rmp1 v)) (pieces ',' rest)
  else if mnemonic = "DECPX".toList then
    withTwo unsignedNumber (fun lo hi => .cmd (.decpx lo hi)) (pieces ',' rest)
  else if mnemonic = "THERM".toList then
    withTwo unsignedNumber (fun hi lo => .cmd (.therm hi lo)) (pieces ',' rest)
  else if mnemonic = "SRCMAN".toList then withTwo signedNumber .srcman (pieces ',' rest)
  else if mnemonic = "SRCAUTO".toList then withNone .srcauto rest
  else if mnemonic = "TGT".toList then withTwo unsignedNumber .tgt (pieces ',' rest)
  else if mnemonic = "WR".toList then wrLine (pieces ',' rest)
  else if mnemonic = "RD".toList then rdLine rest
  else none

/-- The listing line a text writes (R67 to R69): the mnemonic up to the first blank, then the operands. -/
def parseLine (cs : List Char) : Option ListingLine :=
  lineOf ((trim cs).takeWhile fun c => !isBlank c) (trim ((trim cs).dropWhile fun c => !isBlank c))

end ListingText
end Sys2Proof.Machine
end

