-- ==== Sys2Proof/Tests/Slice0.lean ====
section
/-! SUPPORT. Tests: expected values come from the spec's encodings and vectors (95_test_vectors.md), never from a run of
the model. Then, for each obligation with hypotheses, a witness that they can be met together. -/

open Sys2Proof Sys2Proof.Machine

namespace Sys2Proof.Tests

/-! ### Helpers -/

/-- The next state, where there is one. -/
def nextOf (o : Host.Outcome State Fault Refusal) : Option State :=
  match o with
  | .next t => some t
  | _ => none

/-- Right after reset, with inputs waiting. -/
def asked (xs : List Input) : State := { State.reset with host := ⟨xs, []⟩ }

/-- Right after reset, with replies of the transport given. -/
def answered (rs : List LineReply) : State := { State.reset with line := ⟨rs, [], none⟩ }

/-- 16 bytes `lo 00` × 8, with the bytes `2k`, `2k+1` of one pixel replaced. -/
def lineWith (base : Byte) (k : Nat) (lo hi : Byte) : List Byte :=
  ((List.replicate 8 [base, 0]).flatten.set (2 * k) lo).set (2 * k + 1) hi

/-- The uniform line of V7 and P5. -/
def line64 : List Byte := lineWith 0x64 0 0x64 0

/-- The answers of P2, cell 0's ignored high nibble included. -/
def answersP2 : List LineReply :=
  [.bytes (lineWith 0x64 0 0x64 0xF0), .bytes line64, .bytes (lineWith 0x64 5 0xA0 0), .bytes line64,
   .bytes (lineWith 0x64 0 0xA0 0), .bytes line64,
   .bytes (((lineWith 0x64 1 0xD8 0x0F).set 6 0xD8).set 7 0xAF), .bytes line64]

/-- The frame that P2 decodes: 100 but for 160 at 21 and 32, −40 at 49 and 51. -/
def frameP2 : Frame where
  cells := ((((Vector.replicate 64 100).set 21 160).set 32 160).set 49 0xFD8).set 51 0xFD8
  minv := 0xFD8
  minp := 49
  maxv := 160
  maxp := 21

/-- P5's uniform frame. -/
def frameP5 : Frame where
  cells := Vector.replicate 64 100
  minv := 100
  minp := 0
  maxv := 100
  maxp := 0

/-- A state with a frame in it. -/
def framed (f : Frame) : State := { State.reset with regs := { Regs.reset with frame := some f } }

/-- A state with caller-supplied ranges (and a frame). -/
def ranged (sl sh : Int) (tl th : Byte) : State :=
  { State.reset with
    regs := { Regs.reset with
      srcsel := true, srcLo := BitVec.ofInt 16 sl, srcHi := BitVec.ofInt 16 sh, tgtLo := tl, tgtHi := th
      frame := some frameP2 } }

/-- RES0, RES1 after a command. -/
def resAfter (o : Host.Outcome State Fault Refusal) : Option (Option Results) := (nextOf o).map fun t => t.regs.res

/-- STATUS after a command. -/
def statusAfter (o : Host.Outcome State Fault Refusal) : Option Word := (nextOf o).map fun t => t.regs.statusWord

/-- The sensor addresses requested so far. -/
def requestsAfter (o : Host.Outcome State Fault Refusal) : Option (List Addr) :=
  (nextOf o).map fun t => t.line.requests.map fun q => q.addr

/-! ### Decoding: a word of every command, written out by the formats of R62 -/

theorem test_decode_format_N :
    decode (0b00000000#8 ++ 0#24) = .instr .nop ∧ decode (0b00000001#8 ++ 0#24) = .instr .srst ∧
    decode (0b00100000#8 ++ 0#24) = .instr .asm ∧ decode (0b00110000#8 ++ 0#24) = .instr .remap := by decide

theorem test_decode_format_R12 :
    decode (0b00010000#8 ++ 0#12 ++ 0b111111011000#12) = .instr (.dec12 0xFD8) ∧
    decode (0b00010011#8 ++ 0#12 ++ 0b000110000000#12) = .instr (.splitp 0x180) ∧
    decode (0b00010100#8 ++ 0#12 ++ 0b100000000001#12) = .instr (.splitl 0x801) := by decide

theorem test_decode_format_S16 :
    decode (0b00010001#8 ++ 0#8 ++ 0b1111111111011000#16) = .instr (.enc12 (BitVec.ofInt 16 (-40))) ∧
    decode (0b00110001#8 ++ 0#8 ++ 0b0000000000110010#16) = .instr (.rmp1 50) := by decide

theorem test_decode_format_B2 :
    decode (0b00010010#8 ++ 0#8 ++ 0b00001111#8 ++ 0b11011000#8) = .instr (.decpx 0xD8 0x0F) ∧
    decode (0b00010101#8 ++ 0#8 ++ 0b00000001#8 ++ 0b10010000#8) = .instr (.therm 0x01 0x90) := by decide

/-- V9 and R65: an unknown opcode, and reserved bits that are not zero. -/
theorem test_decode_illegal_words :
    decode 0x02000000 = .illegal .unknownOpcode ∧ decode 0xFFFFFFFF = .illegal .unknownOpcode ∧
    decode 0x10001000 = .illegal .reservedBits ∧ decode 0x20000001 = .illegal .reservedBits ∧
    decode 0x11010000 = .illegal .reservedBits := by decide

/-- The words of P2 and P3. -/
theorem test_encode_words :
    encode (.rmp1 160) = 0x310000A0 ∧ encode (.splitl 0x12C) = 0x1400012C ∧
    encode (.enc12 (BitVec.ofInt 16 (-2048))) = 0x1100F800 ∧ encode (.decpx 0x64 0xF0) = 0x1200F064 := by decide

theorem test_decodeTableWord :
    decodeTableWord 32 0x15000190 = some (.therm 0x01 0x90) ∧ decodeTableWord 32 0x10001000 = none ∧
    decodeTableWord 40 0 = none := by decide

/-! ### Well-formedness: a term that each check refuses, at both ends of its range -/

theorem test_wellFormed_raw12 :
    (ListingCmd.dec12 4096).wellFormed = false ∧ (ListingCmd.dec12 (-1)).wellFormed = false ∧
    (ListingCmd.splitp 4096).wellFormed = false ∧ (ListingCmd.splitl (-1)).wellFormed = false ∧
    (ListingCmd.dec12 4095).wellFormed = true ∧ (ListingCmd.splitl 0).wellFormed = true := by decide

theorem test_wellFormed_imm16 :
    (ListingCmd.enc12 32768).wellFormed = false ∧ (ListingCmd.enc12 (-32769)).wellFormed = false ∧
    (ListingCmd.rmp1 32768).wellFormed = false ∧ (ListingCmd.rmp1 (-32769)).wellFormed = false ∧
    (ListingCmd.enc12 (-32768)).wellFormed = true ∧ (ListingCmd.rmp1 32767).wellFormed = true := by decide

theorem test_wellFormed_byte :
    (ListingCmd.decpx 256 0).wellFormed = false ∧ (ListingCmd.decpx 0 (-1)).wellFormed = false ∧
    (ListingCmd.therm 0 256).wellFormed = false ∧ (ListingCmd.therm (-1) 0).wellFormed = false ∧
    (ListingCmd.decpx 255 0).wellFormed = true ∧ (ListingCmd.therm 0 255).wellFormed = true := by decide

theorem test_assemble_refuses_ill_formed :
    assemble (.dec12 4096) = none ∧ assemble (.enc12 32768) = none ∧ assemble (.therm 256 0) = none ∧
    (ListingLine.tgt 256 0).expand = none := by decide

/-! ### Codec (V1 to V6) -/

theorem test_dec12_most_negative :
    resAfter (exec (.dec12 0x800) State.reset) = some (some ⟨0xFFFFF800, 0⟩) ∧
    statusAfter (exec (.dec12 0x800) State.reset) = some 0x10 := by decide

theorem test_dec12_positive_and_minus_one :
    resAfter (exec (.dec12 0x7FF) State.reset) = some (some ⟨0x7FF, 0⟩) ∧
    resAfter (exec (.dec12 0xFFF) State.reset) = some (some ⟨0xFFFFFFFF, 0⟩) := by decide

theorem test_enc12_negative :
    resAfter (exec (.enc12 (BitVec.ofInt 16 (-40))) State.reset) = some (some ⟨0xFD8, 0⟩) ∧
    resAfter (exec (.enc12 (BitVec.ofInt 16 (-2048))) State.reset) = some (some ⟨0x800, 0⟩) := by decide

theorem test_enc12_domain_error :
    statusAfter (exec (.enc12 2048) State.reset) = some 1 ∧ statusAfter (exec (.enc12 2047) State.reset) = some 0x10 ∧
    statusAfter (exec (.enc12 (BitVec.ofInt 16 (-2049))) State.reset) = some 1 := by decide

theorem test_decpx_ignores_high_nibble :
    resAfter (exec (.decpx 0x64 0xF0) State.reset) = some (some ⟨0x64, 0x64⟩) := by decide

theorem test_decpx_negative :
    resAfter (exec (.decpx 0xD8 0x0F) State.reset) = some (some ⟨0xFFFFFFD8, 0xFD8⟩) := by decide

theorem test_splitp :
    resAfter (exec (.splitp 0x180) State.reset) = some (some ⟨0x80, 0x01⟩) ∧
    resAfter (exec (.splitp 0xFD8) State.reset) = some (some ⟨0xD8, 0x0F⟩) := by decide

/-- V5's pinned bytes: bits 8 and 7 of the code are lost. -/
theorem test_splitl_pinned_bytes :
    resAfter (exec (.splitl 0xFD8) State.reset) = some (some ⟨0x58, 0x07⟩) ∧
    resAfter (exec (.splitl 0x12C) State.reset) = some (some ⟨0x2C, 0x00⟩) ∧
    resAfter (exec (.splitl 0x180) State.reset) = some (some ⟨0x00, 0x00⟩) := by decide

theorem test_therm_sign :
    resAfter (exec (.therm 0x07 0xFF) State.reset) = some (some ⟨0x1FF, 511⟩) ∧
    resAfter (exec (.therm 0x08 0x00) State.reset) = some (some ⟨0xFFFFFE00, 512⟩) ∧
    resAfter (exec (.therm 0x01 0x90) State.reset) = some (some ⟨0x64, 100⟩) := by decide

theorem test_therm_domain_error :
    resAfter (exec (.therm 0x0F 0xFF) State.reset) = some (some ⟨0xFFFFFFFF, 1023⟩) ∧
    resAfter (exec (.therm 0x10 0x00) State.reset) = some none ∧
    statusAfter (exec (.therm 0x10 0x00) State.reset) = some 1 := by decide

/-! ### Frame (V7, P2) -/

set_option maxRecDepth 10000 in
/-- P2 step 1: ties go to the first cell in scan order, and 8 lines are read in order. -/
theorem test_asm_P2 :
    (nextOf (exec .asm (answered answersP2))).map (fun t => t.regs.frame) = some (some frameP2) ∧
    statusAfter (exec .asm (answered answersP2)) = some 0x20 ∧
    requestsAfter (exec .asm (answered answersP2)) = some [0x80, 0x90, 0xA0, 0xB0, 0xC0, 0xD0, 0xE0, 0xF0] := by
  decide +kernel

/-- V7: the short, long and transport-error rows, with the lines they read. -/
theorem test_asm_errors :
    statusAfter (exec .asm (answered [.bytes []])) = some 2 ∧
    requestsAfter (exec .asm (answered [.bytes []])) = some [0x80] ∧
    statusAfter (exec .asm (answered (List.replicate 3 (.bytes line64) ++ [.bytes (line64.take 15)]))) = some 2 ∧
    statusAfter (exec .asm (answered (List.replicate 7 (.bytes line64) ++ [.bytes (0 :: line64)]))) = some 3 ∧
    statusAfter (exec .asm (answered (List.replicate 5 (.bytes line64) ++ [.transportError]))) = some 5 := by
  decide +kernel

/-- R176: the write of an `ASM` that waits for good is not answered; then only a hardware reset is taken. -/
theorem test_asm_stuck_until_hard_reset :
    let s := { answered [.silent] with host := ⟨[.write 0x00 0x20000000, .write 0x00 0x01000000, .hardReset], []⟩ }
    (nextOf (step s)).map (fun t => (t.host.responses, t.line.waiting, t.line.requests.length)) =
      some ([], some 0, 1) ∧
    ((nextOf (step s)).bind fun t => nextOf (step t)).map (fun t => (t.host.pending, t.line.waiting)) =
      some ([.write 0x00 0x01000000], none) := by decide +kernel

/-! ### Remapper (V8, P2, P5) -/

theorem test_rmp1_V8 :
    resAfter (exec (.rmp1 50) (ranged 0 100 0 255)) = some (some ⟨127, 127⟩) ∧
    resAfter (exec (.rmp1 101) (ranged 0 100 0 255)) = some (some ⟨255, 257⟩) ∧
    resAfter (exec (.rmp1 (BitVec.ofInt 16 (-1))) (ranged 0 100 0 255)) = some (some ⟨0, 0xFFFFFFFE⟩) ∧
    resAfter (exec (.rmp1 25) (ranged 100 0 0 255)) = some (some ⟨191, 191⟩) ∧
    resAfter (exec (.rmp1 25) (ranged 0 100 255 0)) = some (some ⟨191, 191⟩) ∧
    resAfter (exec (.rmp1 120) (ranged 0 100 50 200)) = some (some ⟨230, 230⟩) := by decide +kernel

theorem test_rmp1_status :
    statusAfter (exec (.rmp1 101) (ranged 0 100 0 255)) = some 0xB0 ∧
    statusAfter (exec (.rmp1 5) (ranged 7 7 0 255)) = some 0x24 ∧
    statusAfter (exec (.rmp1 5) State.reset) = some 7 := by decide +kernel

/-- P2 steps 9 and 14 to 17. -/
theorem test_remap_P2 :
    statusAfter (exec .remap (framed frameP2)) = some 0x60 ∧
    (nextOf (exec .remap (framed frameP2))).bind (fun t => t.regs.valueAt (.gray 0)) = some 178 ∧
    statusAfter (exec .remap (ranged 0 120 0 255)) = some 0xE0 ∧
    (nextOf (exec .remap (ranged 0 120 0 255))).bind (fun t => t.regs.valueAt (.gray 0)) = some 212 ∧
    (nextOf (exec .remap (ranged 0 120 0 255))).bind (fun t => t.regs.valueAt (.gray 21)) = some 255 ∧
    (nextOf (exec .remap (ranged 0 120 0 255))).bind (fun t => t.regs.valueAt (.gray 49)) = some 0 := by
  decide +kernel

/-- P5 step 2, and V8's NoFrame. -/
theorem test_remap_errors :
    statusAfter (exec .remap (framed frameP5)) = some 0x24 ∧ statusAfter (exec .remap State.reset) = some 7 := by
  decide +kernel

/-! ### System, host port (V9) -/

theorem test_nop : statusAfter (exec .nop (framed frameP5)) = some 0x20 := by decide +kernel

theorem test_srst :
    (nextOf (exec .srst (ranged 0 100 1 2))).map (fun t => t.regs) = some Regs.reset := by decide +kernel

theorem test_illegal_word :
    nextOf (step (asked [.write 0x00 0x10001000])) = some { State.reset with
      regs := { Regs.reset with err := .illegalCommand }, host := ⟨[], [.ok]⟩ } := by decide +kernel

theorem test_reads_at_reset :
    Regs.reset.hostRead 0x08 = .okData 0xFF ∧ Regs.reset.hostRead 0xBF = .busError .noValue ∧
    Regs.reset.hostRead 0x00 = .busError .accessDenied ∧ Regs.reset.hostRead 0x0D = .busError .unmapped := by decide

theorem test_control_writes :
    (Regs.reset.writeControl .srcLo 0xFFFFFFD8).hostRead 0x05 = .okData 0xFFFFFFD8 ∧
    (Regs.reset.writeControl .srcHi 0x00018000).hostRead 0x06 = .okData 0xFFFF8000 ∧
    (Regs.reset.writeControl .tgtHi 0x1FF).hostRead 0x08 = .okData 0xFF ∧
    (Regs.reset.writeControl .ctrl 0xFFFFFFFE).hostRead 0x02 = .okData 0 := by decide

theorem test_write_denied :
    (nextOf (step (asked [.write 0x43 1]))).map (fun t => t.host.responses) = some [.busError .accessDenied] ∧
    (nextOf (step (asked [.write 0x3F 0]))).map (fun t => t.host.responses) = some [.busError .unmapped] := by
  decide +kernel

theorem test_fetch_word :
    nextOf (step (State.reset.withFetchWord 32 0x10000800)) = some { State.reset with
      regs := { Regs.reset with res := some ⟨0xFFFFF800, 0⟩ }, host := ⟨[], [.ok]⟩ } := by decide +kernel

/-! ### Listings (R67 to R69, P1, P2) -/

theorem test_listing_commands :
    (ListingText.parseLine "ENC12 -40".toList).bind ListingLine.expand = some [.write 0x00 0x1100FFD8] ∧
    (ListingText.parseLine "DECPX 0xD8, 0x0F".toList).bind ListingLine.expand = some [.write 0x00 0x12000FD8] ∧
    (ListingText.parseLine "SRCMAN 0, 120".toList).bind ListingLine.expand =
      some [.write 0x05 0, .write 0x06 120, .write 0x02 1] := by decide +kernel

theorem test_listing_errors :
    (ListingText.parseLine "DEC12 -0".toList).bind ListingLine.expand = none ∧
    (ListingText.parseLine "DEC12 4096".toList).bind ListingLine.expand = none ∧
    ListingText.parseLine "RD FRAME[64]".toList = none := by decide +kernel

theorem test_listing_read :
    ListingText.parseLine "RD FRAME[3] -> BusError(NoValue)".toList =
      some (.rd (.frame 3) (some (.busError .noValue))) := by decide +kernel

/-! ### Witnesses: the hypotheses of the obligations can be met -/

/-- The invariant of R24 is met by P2's frame and by P5's. -/
theorem witness_frame_inv : frameP2.Inv ∧ frameP5.Inv :=
  ⟨⟨by decide +kernel, by decide +kernel, by decide +kernel, by decide +kernel, by decide +kernel, by decide +kernel⟩,
   ⟨by decide +kernel, by decide +kernel, by decide +kernel, by decide +kernel, by decide +kernel, by decide +kernel⟩⟩

theorem witness_EncodeOfDecode : decode 0x15000190 = .instr (.therm 0x01 0x90) := by decide

theorem witness_DecodeFollowsOpcodeTable :
    (∃ r ∈ opcodeTable, 0x10000FFF &&& r.mask = r.pattern) ∧ ∀ r ∈ opcodeTable, 0x02000000 &&& r.mask ≠ r.pattern := by
  decide

theorem witness_IllegalWordOnlySetsErr :
    (asked [.write 0x00 0x20000001]).line.waiting = none ∧
    (asked [.write 0x00 0x20000001]).host.pending = .write 0x00 0x20000001 :: [] ∧
    ∀ r ∈ opcodeTable, 0x20000001 &&& r.mask ≠ r.pattern := by decide

theorem witness_StepRunsDecodedCommand :
    (asked [.write 0x00 0x01000000]).line.waiting = none ∧
    (asked [.write 0x00 0x01000000]).host.pending = .write 0x00 0x01000000 :: [] ∧
    decode 0x01000000 = .instr .srst := by decide

theorem witness_FetchWordRunsCommand :
    State.reset.line.waiting = none ∧ exec .nop State.reset = .next State.reset := ⟨rfl, rfl⟩

/-- A core that is not stuck, and one that is. -/
theorem witness_HardResetGivesResetState :
    (asked [.hardReset]).host.pending = .hardReset :: [] ∧
    let s := { asked [.hardReset] with line := ⟨[], [⟨0, 0x80, 16⟩], some 0⟩ }
    s.host.pending = .hardReset :: [] ∧ s.line.waiting = some 0 := by decide

theorem witness_Enc12EncodesOrDomainError :
    (BitVec.ofInt 16 (-2048)).toInt = -2048 ∧ (2047#16).toInt = 2047 ∧
    (BitVec.ofInt 16 (-2049)).toInt < -2048 ∧ 2047 < (2048#16).toInt := by decide

theorem witness_ThermCombinesOrDomainError : (0x0F#8).toNat < 0x10 ∧ 0x10 ≤ (0x10#8).toNat := by decide

theorem witness_CodecRoundTrip : (0x0F#8) &&& 0x0F = 0xFF#8 &&& 0x0F ∧ (-2048 : Int) ≤ 2047 := by decide

theorem witness_SplitlLosesBitsEightAndSeven :
    (0x000#12) &&& 0xE7F = 0x180#12 &&& 0xE7F ∧ (0x000#12) ≠ 0x180#12 := by decide

theorem witness_CodecResultIndependentOfState :
    isCodec (.dec12 0) = true ∧ isCodec (.enc12 2048) = true ∧ isCodec (.decpx 0 0) = true ∧
    isCodec (.splitp 0) = true ∧ isCodec (.splitl 0) = true ∧ isCodec (.therm 0xFF 0) = true := by decide

/-- 8 answers of 16 bytes, as blocks. -/
theorem witness_AsmFrameIsFunctionOfAnswers :
    ∃ b : Fin 8 → Block, ∀ i : Fin 8, (answered answersP2).line.upcoming i.val = .bytes (b i).toList :=
  ⟨fun i => Vector.ofFn fun k : Fin 16 =>
      match answersP2[i.val]? with
      | some (.bytes l) => l.getD k.val 0
      | _ => 0, by decide +kernel⟩

/-- `m` good answers of 16 bytes and then `r`. -/
def failingAt (m : Nat) (r : LineReply) : State := answered (List.replicate m (.bytes line64) ++ [r])

/-- Lines before `m` are answered with 16 bytes. -/
def GoodBefore (s : State) (m : Nat) : Prop :=
  ∀ i : Nat, i < m → ∃ l : List Byte, s.line.upcoming i = .bytes l ∧ l.length = 16

theorem goodBefore_failingAt (m : Nat) (r : LineReply) : GoodBefore (failingAt m r) m := by
  intro i hi
  refine ⟨line64, ?_, by decide⟩
  simp [failingAt, answered, LinePort.upcoming, List.getElem?_append_left, hi]

theorem upcoming_failingAt (m : Nat) (r : LineReply) : (failingAt m r).line.upcoming m = r := by
  simp [failingAt, answered, LinePort.upcoming]

/-- Each clause, at the first line and at the last. -/
theorem witness_AsmFailsAtFirstFaultyLine (m : Fin 8) :
    (GoodBefore (failingAt m .transportError) m ∧
      (failingAt m .transportError).line.upcoming m = .transportError) ∧
    (GoodBefore (failingAt m (.bytes (line64.take 15))) m ∧
      (failingAt m (.bytes (line64.take 15))).line.upcoming m = .bytes (line64.take 15) ∧
      (line64.take 15).length < 16) ∧
    (GoodBefore (failingAt m (.bytes (0 :: line64))) m ∧
      (failingAt m (.bytes (0 :: line64))).line.upcoming m = .bytes (0 :: line64) ∧ 16 < (0 :: line64).length) :=
  ⟨⟨goodBefore_failingAt _ _, upcoming_failingAt _ _⟩,
   ⟨goodBefore_failingAt _ _, upcoming_failingAt _ _, by decide⟩,
   ⟨goodBefore_failingAt _ _, upcoming_failingAt _ _, by decide⟩⟩

/-- The stuck core of the tests: line 0 was never answered; a read and a hardware reset wait at the port. -/
def stuck : State :=
  { asked [.read 0x01, .hardReset, .read 0x02] with line := ⟨[], [⟨0, 0x80, 16⟩], some 0⟩ }

/-- `m` good answers and then silence, with an `ASM` at the port. -/
def silentAt (m : Nat) : State := { failingAt m .silent with host := ⟨[.write 0x00 0x20000000], []⟩ }

/-- The way into the stuck state, at any line; a stuck core without and with a reset among its inputs. -/
theorem witness_SilentTransportSticksUntilHardReset (m : Fin 8) :
    ((silentAt m).line.waiting = none ∧ (silentAt m).host.pending = .write 0x00 0x20000000 :: [] ∧
      GoodBefore (silentAt m) m ∧ (silentAt m).line.upcoming m = .silent) ∧
    ({ stuck with host := ⟨[.read 0x01], []⟩ }.line.waiting = some 0 ∧ .hardReset ∉ [Input.read 0x01]) ∧
    (stuck.line.waiting = some 0 ∧ .hardReset ∉ [Input.read 0x01] ∧
      stuck.host.pending = [.read 0x01] ++ .hardReset :: [.read 0x02]) :=
  ⟨⟨rfl, rfl, goodBefore_failingAt _ _, upcoming_failingAt _ _⟩, by decide, by decide⟩

/-- Both sides of the equivalence occur. -/
theorem witness_CommandCompletesIffReadsAnswered :
    Instr.nop ≠ .asm ∧ (answered answersP2).line.waiting = none ∧
    (nextOf (exec .asm (answered answersP2))).map (fun t => t.line.waiting) = some none ∧
    (nextOf (exec .asm (answered [.silent]))).map (fun t => t.line.waiting) = some (some 0) := by
  decide +kernel

theorem witness_OnlyAsmReadsLines :
    let s := { answered [.transportError] with host := ⟨[.write 0x00 0x20000000], []⟩ }
    ∃ t, step s = .next t ∧ t.line.requests ≠ s.line.requests := ⟨_, rfl, by decide⟩

/-- NoFrame; a degenerate own range; a degenerate supplied range; a proper own range; a proper supplied range. -/
theorem witness_RemapOutcomes :
    State.reset.regs.frame = none ∧
    ((framed frameP5).regs.srcsel = false ∧ frameP5.minv.toInt = frameP5.maxv.toInt) ∧
    ((ranged 7 7 0 255).regs.srcsel = true ∧ (ranged 7 7 0 255).regs.srcLo = (ranged 7 7 0 255).regs.srcHi) ∧
    ((framed frameP2).regs.srcsel = false ∧ frameP2.minv.toInt ≠ frameP2.maxv.toInt) ∧
    ((ranged 100 0 0 255).regs.srcsel = true ∧
      (ranged 100 0 0 255).regs.srcLo.toInt ≠ (ranged 100 0 0 255).regs.srcHi.toInt) := by decide +kernel

theorem witness_Rmp1Outcomes :
    (State.reset.regs.srcsel = false ∧ State.reset.regs.frame = none) ∧
    ((framed frameP2).regs.srcsel = false ∧ (framed frameP2).regs.frame = some frameP2) ∧
    (ranged 0 100 0 255).regs.srcsel = true := by decide +kernel

theorem witness_Rmp1TruncatesTowardZeroWithinBounds :
    (ranged (-32768) 32767 255 0).regs.srcsel = true ∧
    (ranged (-32768) 32767 255 0).regs.srcLo ≠ (ranged (-32768) 32767 255 0).regs.srcHi := by decide

theorem witness_RemapOwnRangeStaysInTarget :
    (framed frameP2).regs.frame = some frameP2 ∧ frameP2.Inv ∧ (framed frameP2).regs.srcsel = false ∧
    frameP2.minv ≠ frameP2.maxv ∧ (framed frameP2).regs.tgtLo = 0 ∧ (framed frameP2).regs.tgtHi = 255 :=
  ⟨rfl, witness_frame_inv.1, rfl, by decide, rfl, rfl⟩

theorem witness_RemapLaneEqualsRmp1 :
    ((framed frameP2).regs.srcsel = false ∧ frameP2.minv ≠ frameP2.maxv) ∧
    ((ranged 0 120 0 255).regs.srcsel = true ∧
      (ranged 0 120 0 255).regs.srcLo ≠ (ranged 0 120 0 255).regs.srcHi) := by decide

theorem witness_EqualTargetsGiveConstantMap :
    (ranged 0 100 10 10).regs.srcsel = true ∧ (ranged 0 100 10 10).regs.srcLo ≠ (ranged 0 100 10 10).regs.srcHi ∧
    (ranged 0 100 10 10).regs.tgtLo = (ranged 0 100 10 10).regs.tgtHi ∧ (ranged 0 100 10 10).regs.frame ≠ none := by
  decide +kernel

/-- A completion of each kind of command, and an error outcome of each kind. -/
theorem witness_OutcomeDecidesDestinations :
    (nextOf (exec (.enc12 2048) State.reset)).isSome = true ∧ (nextOf (exec (.rmp1 5) State.reset)).isSome = true ∧
    (nextOf (exec .remap State.reset)).isSome = true ∧ (nextOf (exec .remap (framed frameP2))).isSome = true ∧
    (nextOf (exec .asm (answered [.bytes []]))).map (fun t => t.line.waiting) = some none ∧
    (nextOf (exec .asm (answered answersP2))).map (fun t => t.line.waiting) = some none := by decide +kernel

theorem witness_OutcomesPerCommand :
    (nextOf (exec (.enc12 2048) State.reset)).map (fun t => t.regs.err) = some .domainError ∧
    (nextOf (exec .asm (answered [.bytes []]))).map (fun t => t.regs.err) = some .shortReadError := by decide +kernel

theorem witness_ErrIsNotSticky :
    (asked [.write 0x00 0x30000000]).line.waiting = none ∧
    (asked [.write 0x00 0x30000000]).host.pending = .write 0x00 0x30000000 :: [] ∧
    ∃ u, step (asked [.write 0x00 0x30000000]) = .next u ∧ u.line.waiting = none := ⟨rfl, rfl, _, rfl, rfl⟩

/-- A command and a reset that change the results. -/
theorem witness_ResultsWrittenOnlyByCodecAndRmp1 :
    (∃ t, step (asked [.write 0x00 0x10000001]) = .next t ∧ t.regs.res ≠ none) ∧
    let s := { asked [.hardReset] with regs := { Regs.reset with res := some ⟨1, 0⟩ } }
    ∃ t, step s = .next t ∧ t.regs.res ≠ s.regs.res := ⟨⟨_, rfl, by decide⟩, ⟨_, rfl, by decide⟩⟩

/-- A failing `ASM` and a reset that take the frame away. -/
theorem witness_FrameWrittenOnlyByAsm :
    let s := { framed frameP2 with host := ⟨[.write 0x00 0x20000000], []⟩, line := ⟨[.bytes []], [], none⟩ }
    let r := { framed frameP2 with host := ⟨[.hardReset], []⟩ }
    (∃ t, step s = .next t ∧ t.regs.frame ≠ s.regs.frame) ∧ ∃ t, step r = .next t ∧ t.regs.frame ≠ r.regs.frame :=
  ⟨⟨_, rfl, by decide +kernel⟩, ⟨_, rfl, by decide +kernel⟩⟩

/-- A failing `REMAP` and a reset that take the image away. -/
theorem witness_GrayWrittenOnlyByRemap :
    let g : Regs := { Regs.reset with gray := some (Vector.replicate 64 7) }
    let s := { asked [.write 0x00 0x30000000] with regs := g }
    let r := { asked [.hardReset] with regs := g }
    (∃ t, step s = .next t ∧ t.regs.gray ≠ s.regs.gray) ∧ ∃ t, step r = .next t ∧ t.regs.gray ≠ r.regs.gray :=
  ⟨⟨_, rfl, by decide +kernel⟩, ⟨_, rfl, by decide +kernel⟩⟩

theorem witness_CommandsLeaveControlRegisters : Instr.nop ≠ .srst ∧ exec .nop State.reset = .next State.reset :=
  ⟨by decide, rfl⟩

/-- The ends of the unmapped ranges, and the mapped addresses beside them. -/
theorem witness_RegisterMapReads :
    (∀ a ∈ ([0x0D, 0x3F, 0xC0, 0xFF] : List Addr), (0x0D ≤ a.toNat ∧ a.toNat ≤ 0x3F) ∨ 0xC0 ≤ a.toNat) ∧
    ∀ a ∈ ([0x0C, 0x40, 0x7F, 0x80, 0xBF] : List Addr), ¬((0x0D ≤ a.toNat ∧ a.toNat ≤ 0x3F) ∨ 0xC0 ≤ a.toNat) := by
  decide

theorem witness_HostReadHasNoSideEffect :
    (asked [.read 0x03]).host.pending = .read 0x03 :: [] ∧ (asked [.read 0x03]).line.waiting = none := ⟨rfl, rfl⟩

/-- The read-only addresses, as HostWritesStoreOrAreDenied writes them. -/
abbrev DeniedAt (a : Addr) : Prop :=
  a = 0x01 ∨ a = 0x03 ∨ a = 0x04 ∨ (0x09 ≤ a.toNat ∧ a.toNat ≤ 0x0C) ∨ (0x40 ≤ a.toNat ∧ a.toNat ≤ 0xBF)

/-- The unmapped addresses, as HostWritesStoreOrAreDenied writes them. -/
abbrev UnmappedAt (a : Addr) : Prop := (0x0D ≤ a.toNat ∧ a.toNat ≤ 0x3F) ∨ 0xC0 ≤ a.toNat

/-- Each address clause at its boundaries. -/
theorem witness_HostWritesStoreOrAreDenied :
    (∀ a ∈ ([0x01, 0x03, 0x04, 0x09, 0x0C, 0x40, 0xBF] : List Addr), DeniedAt a) ∧
    (∀ a ∈ ([0x0D, 0x3F, 0xC0, 0xFF] : List Addr), UnmappedAt a) ∧
    (asked [.write 0x02 1]).line.waiting = none ∧ (asked [.write 0x02 1]).host.pending = .write 0x02 1 :: [] := by
  decide

/-- No address falls under two clauses. -/
theorem witness_HostWritesStoreOrAreDenied_disjoint :
    (∀ a ∈ ([0x02, 0x05, 0x06, 0x07, 0x08] : List Addr), ¬DeniedAt a ∧ ¬UnmappedAt a) ∧
    ∀ a : Addr, DeniedAt a → ¬UnmappedAt a := by
  refine ⟨by decide, ?_⟩
  rintro a (rfl | rfl | rfl | h | h)
  · decide
  · decide
  · decide
  · omega
  · omega

theorem witness_ControlRegistersReadBack :
    (∀ a ∈ ([0x02, 0x05, 0x06, 0x07, 0x08] : List Addr),
      a = 0x02 ∨ (a = 0x05 ∨ a = 0x06) ∨ (a = 0x07 ∨ a = 0x08)) ∧
    (asked [.write 0x06 0x18000, .read 0x06]).line.waiting = none ∧
    (asked [.write 0x06 0x18000, .read 0x06]).host.pending = .write 0x06 0x18000 :: .read 0x06 :: [] := by decide

theorem witness_CommandWriteAnsweredOk :
    (asked [.write 0x00 0x11000800]).line.waiting = none ∧
    (asked [.write 0x00 0x11000800]).host.pending = .write 0x00 0x11000800 :: [] ∧
    ∃ t, step (asked [.write 0x00 0x11000800]) = .next t ∧ t.line.waiting = none := ⟨rfl, rfl, _, rfl, rfl⟩

/-- No input; a transaction; a hardware reset. -/
theorem witness_InputsTakenInOrder :
    step State.reset = .next State.reset ∧
    (∃ t, step (asked [.read 0x01, .hardReset]) = .next t ∧ t.line.waiting = none) ∧
    ∃ t, step (asked [.hardReset]) = .next t := ⟨rfl, ⟨_, rfl, rfl⟩, ⟨_, rfl⟩⟩

theorem witness_BusErrorChangesNothing :
    ∃ t, step (asked [.write 0x3F 0]) = .next t ∧ t.host.responses = [] ++ [.busError .unmapped] := ⟨_, rfl, rfl⟩

theorem witness_PseudoInstructionsSetRanges :
    State.reset.line.waiting = none ∧ (0 : Int) ≤ 0 ∧ (0 : Int) ≤ 255 ∧ (0 : Int) ≤ 255 ∧ (255 : Int) ≤ 255 := by
  decide

/-- Both ends of each range, and one step outside. -/
theorem witness_ListingOperandsKeepTheirValue :
    ((0 : Int) ≤ 4095 ∧ (4095 : Int) ≤ 4095) ∧ ((4095 : Int) < 4096 ∧ (-1 : Int) < 0) ∧
    ((-32768 : Int) ≤ -32768 ∧ (32767 : Int) ≤ 32767) ∧ ((-32769 : Int) < -32768 ∧ (32767 : Int) < 32768) ∧
    ((0 : Int) ≤ 255 ∧ (255 : Int) < 256) := by decide

/-- A state with a frame that meets R24, and a step from it. -/
theorem witness_StepKeepsFrameInvariant :
    let s := { framed frameP2 with host := ⟨[.write 0x00 0x00000000], []⟩ }
    FrameInv s ∧ ∃ t, step s = .next t :=
  ⟨fun _ h => Option.some.inj h ▸ witness_frame_inv.1, ⟨_, rfl⟩⟩

/-- A core that has read the last line before, with another `ASM` at the port. -/
def requested : State :=
  { asked [.write 0x00 0x20000000] with line := ⟨[.transportError], [⟨7, 0xF0, 16⟩], none⟩ }

/-- A state that has issued the last line's request, and a step from it; a stuck state, and a step from it. -/
theorem witness_StepKeepsRequestInvariants :
    ((∀ q ∈ requested.line.requests, ∃ i : Fin 8, q = ⟨i.val, BitVec.ofNat 8 (0x80 + 16 * i.val), 16⟩) ∧
      (∀ l, requested.line.waiting = some l →
        requested.line.requests.getLast? = some ⟨l, BitVec.ofNat 8 (0x80 + 16 * l), 16⟩) ∧
      ∃ t, step requested = .next t) ∧
    (∀ q ∈ stuck.line.requests, ∃ i : Fin 8, q = ⟨i.val, BitVec.ofNat 8 (0x80 + 16 * i.val), 16⟩) ∧
    (∀ l, stuck.line.waiting = some l →
      stuck.line.requests.getLast? = some ⟨l, BitVec.ofNat 8 (0x80 + 16 * l), 16⟩) ∧
    ∃ t, step stuck = .next t := by
  refine ⟨⟨by decide, ?_, ⟨_, rfl⟩⟩, by decide, ?_, ⟨_, rfl⟩⟩
  · intro l h; cases h
  · intro l h; cases h; rfl

/-- A core that is not stuck and one that becomes so. -/
theorem witness_StepSticksOnlyOnSilentTransport :
    let s := { answered [.silent] with host := ⟨[.write 0x00 0x20000000], []⟩ }
    s.line.waiting = none ∧ CommandTaken s 0x20000000 := ⟨rfl, rfl, _, rfl⟩

end Sys2Proof.Tests
end

/-! PROOFS. The state (10_state.md): who writes each element, the frame invariant, ERR, STATUS and the control registers
at the host port, reset. -/

namespace Sys2Proof.Machine

/-! ### What a command and a step do to the core's elements -/

/-- Everything a command that goes on can have done (R85 to R90, R103, R125, R126, R135, R136, R157, R176), sorted by
its destinations. -/
theorem exec_cases {i : Instr} {s t : State} (h : exec i s = .next t) :
    (i = .nop ∧ t = s.completeNone) ∨
    (i = .srst ∧ t = s.resetRegs) ∨
    (writesResults i = true ∧ ((∃ a b, t = s.completeCodec a b) ∨ (∃ a b c, t = s.completeRmp1 a b c) ∨
      (∃ e, t = s.raise .codec e) ∨ ∃ e, t = s.raise .rmp1 e)) ∨
    (i = .asm ∧ ∃ p, (∃ lines, t = State.completeFrame { s with line := p } (assembleFrame lines)) ∨
      (∃ e, t = State.raise { s with line := p } .frame e) ∨ ∃ l, t = State.waitForLine { s with line := p } l) ∨
    (i = .remap ∧ ((∃ g c, t = s.completeGray g c) ∨ ∃ e, t = s.raise .gray e)) := by
  cases i with
  | nop => cases h; exact .inl ⟨rfl, rfl⟩
  | srst => cases h; exact .inr (.inl ⟨rfl, rfl⟩)
  | enc12 imm16 =>
    refine .inr (.inr (.inl ⟨rfl, ?_⟩))
    rcases execEnc12_cases imm16 s with ⟨_, hx⟩ | ⟨raw, _, hx⟩ <;> cases hx.symm.trans h
    · exact .inr (.inr (.inl ⟨_, rfl⟩))
    · exact .inl ⟨_, _, rfl⟩
  | therm hi lo =>
    refine .inr (.inr (.inl ⟨rfl, ?_⟩))
    rcases execTherm_cases hi lo s with ⟨_, hx⟩ | ⟨q, _, hx⟩ <;> cases hx.symm.trans h
    · exact .inr (.inr (.inl ⟨_, rfl⟩))
    · exact .inl ⟨_, _, rfl⟩
  | rmp1 imm16 =>
    refine .inr (.inr (.inl ⟨rfl, ?_⟩))
    rcases execRmp1_cases imm16 s with ⟨_, hx⟩ | ⟨g, _, ⟨_, hx⟩ | ⟨_, hx⟩⟩ <;> cases hx.symm.trans h
    · exact .inr (.inr (.inr ⟨_, rfl⟩))
    · exact .inr (.inr (.inr ⟨_, rfl⟩))
    · exact .inr (.inl ⟨_, _, _, rfl⟩)
  | asm =>
    refine .inr (.inr (.inr (.inl ⟨rfl, ?_⟩)))
    rcases execAsm_cases s with ⟨lines, p, _, hx⟩ | ⟨e, p, _, hx⟩ | ⟨l, p, _, hx⟩ <;> cases hx.symm.trans h
    · exact ⟨p, .inl ⟨lines, rfl⟩⟩
    · exact ⟨p, .inr (.inl ⟨e, rfl⟩)⟩
    · exact ⟨p, .inr (.inr ⟨l, rfl⟩)⟩
  | remap =>
    refine .inr (.inr (.inr (.inr ⟨rfl, ?_⟩)))
    rcases execRemap_cases s with ⟨_, hx⟩ | ⟨f, g, _, _, ⟨_, hx⟩ | ⟨_, hx⟩⟩ <;> cases hx.symm.trans h
    · exact .inr ⟨_, rfl⟩
    · exact .inr ⟨_, rfl⟩
    · exact .inl ⟨_, _, rfl⟩
  | dec12 | decpx | splitp | splitl => cases h; exact .inr (.inr (.inl ⟨rfl, .inl ⟨_, _, rfl⟩⟩))

/-- The codec commands, `RMP1` and `SRST` alone write the results (R14). -/
theorem writesResults_of_exec_res_ne {i : Instr} {s t : State} (h : exec i s = .next t)
    (hne : t.regs.res ≠ s.regs.res) : writesResults i = true ∨ i = .srst := by
  rcases exec_cases h with ⟨_, rfl⟩ | ⟨hi, _⟩ | ⟨hi, _⟩ | ⟨_, p, ⟨_, rfl⟩ | ⟨_, rfl⟩ | ⟨_, rfl⟩⟩ |
    ⟨_, ⟨_, _, rfl⟩ | ⟨_, rfl⟩⟩
  case inr.inl => exact .inr hi
  case inr.inr.inl => exact .inl hi
  all_goals exact absurd rfl hne

/-- `ASM` and `SRST` alone write the frame (R17, R18). -/
theorem asm_or_srst_of_exec_frame_ne {i : Instr} {s t : State} (h : exec i s = .next t)
    (hne : t.regs.frame ≠ s.regs.frame) : i = .asm ∨ i = .srst := by
  rcases exec_cases h with ⟨_, rfl⟩ | ⟨hi, _⟩ | ⟨_, ⟨_, _, rfl⟩ | ⟨_, _, _, rfl⟩ | ⟨_, rfl⟩ | ⟨_, rfl⟩⟩ |
    ⟨hi, _⟩ | ⟨_, ⟨_, _, rfl⟩ | ⟨_, rfl⟩⟩
  case inr.inl => exact .inr hi
  case inr.inr.inr.inl => exact .inl hi
  all_goals exact absurd rfl hne

/-- `REMAP` and `SRST` alone write GRAY (R19). -/
theorem remap_or_srst_of_exec_gray_ne {i : Instr} {s t : State} (h : exec i s = .next t)
    (hne : t.regs.gray ≠ s.regs.gray) : i = .remap ∨ i = .srst := by
  rcases exec_cases h with ⟨_, rfl⟩ | ⟨hi, _⟩ | ⟨_, ⟨_, _, rfl⟩ | ⟨_, _, _, rfl⟩ | ⟨_, rfl⟩ | ⟨_, rfl⟩⟩ |
    ⟨_, p, ⟨_, rfl⟩ | ⟨_, rfl⟩ | ⟨_, rfl⟩⟩ | ⟨hi, _⟩
  case inr.inl => exact .inr hi
  case inr.inr.inr.inr => exact .inl hi
  all_goals exact absurd rfl hne

/-- A stuck core takes the hardware reset among its inputs, or goes on waiting (R176). -/
theorem awaitReset_cases (s : State) :
    (Input.hardReset ∈ s.host.pending ∧ (awaitReset s).regs = Regs.reset) ∨ awaitReset s = s := by
  by_cases hm : Input.hardReset ∈ s.host.pending
  · exact .inl ⟨hm, by simp [awaitReset, hm]⟩
  · exact .inr (by simp [awaitReset, hm])

/-- How a step can write the results, the frame and GRAY (R21, R43, R65, R170): by a hardware reset, by a command, or
not at all. -/
theorem step_data_cases {s t : State} (h : step s = .next t) :
    (HardResetTaken s ∧ t.regs = Regs.reset) ∨
    (∃ cw i rest u, CommandTaken s cw ∧ decode cw = .instr i ∧ exec i (s.withPending rest) = .next u ∧
      t.regs = u.regs) ∨
    (t.regs.res = s.regs.res ∧ t.regs.frame = s.regs.frame ∧ t.regs.gray = s.regs.gray) := by
  rcases step_cases h with ⟨l, hl, rfl⟩ | ⟨hw, ⟨_, rfl⟩ | ⟨a, rest, _, rfl⟩ | ⟨rest, hp, rfl⟩ |
    ⟨cw, rest, hp, ⟨i, u, hd, hu, rfl⟩ | ⟨_, _, rfl⟩⟩ | ⟨a, d, rest, _, _, ⟨_, rfl⟩ | ⟨l, rfl⟩⟩⟩
  · rcases awaitReset_cases s with ⟨hm, hr⟩ | hs
    · exact .inl ⟨.inr ⟨by simp [hl], hm⟩, hr⟩
    · exact .inr (.inr (by simp [hs]))
  · exact .inr (.inr ⟨rfl, rfl, rfl⟩)
  · exact .inr (.inr ⟨rfl, rfl, rfl⟩)
  · exact .inl ⟨.inl ⟨hw, rest, hp⟩, rfl⟩
  · exact .inr (.inl ⟨cw, i, rest, u, ⟨hw, rest, hp⟩, hd, hu, by split <;> rfl⟩)
  · exact .inr (.inr ⟨rfl, rfl, rfl⟩)
  · exact .inr (.inr ⟨rfl, rfl, rfl⟩)
  · obtain ⟨-, -, hres, hframe, hgray⟩ := s.regs.writeControl_frame l d
    exact .inr (.inr ⟨hres, hframe, hgray⟩)

/-- The word of a format N command that is taken is the command's one encoding (R62, R66). -/
theorem CommandTaken.encodeN {s : State} {cw : Word} {op : Byte} (h : CommandTaken s cw)
    (hcw : opcodeField cw = op ∧ reservedN cw = 0) : CommandTaken s (Sys2Proof.encodeN op) := by
  obtain ⟨hop, hreserved⟩ := hcw
  have hword : cw = Sys2Proof.encodeN op :=
    word_ext (hop.trans (opcodeField_encodeN op).symm) (hreserved.trans (reservedN_encodeN op).symm)
  exact hword ▸ h

/-! ### The frame invariant -/

/-- What the tracker has found after 64 cells is the frame invariant (R24, R102). -/
theorem TrackedUpTo.frame_inv {w : Vector Cell 64} {t : Extrema} (h : TrackedUpTo w 64 t) :
    Frame.Inv ⟨w, t.mn.value, t.mn.position, t.mx.value, t.mx.position⟩ := by
  obtain ⟨⟨a, _, ha, minLe, minFirst⟩, ⟨b, _, hb, leMax, maxFirst⟩⟩ := h
  rw [ha, hb]
  constructor
  case min_le => exact fun n => minLe n n.isLt
  case le_max => exact fun n => leMax n n.isLt
  case at_minp => simp only [extremumAt_position]; rfl
  case at_maxp => simp only [extremumAt_position]; rfl
  case minp_first =>
    intro n hn
    rw [extremumAt_position]
    by_contra hlt
    exact (minFirst n (by omega)).ne (congrArg cellValue hn.symm)
  case maxp_first =>
    intro n hn
    rw [extremumAt_position]
    by_contra hlt
    exact (maxFirst n (by omega)).ne (congrArg cellValue hn)

/-- The frame a successful `ASM` writes meets the frame invariant (R24, R103). -/
theorem assembleFrame_inv (lines : Vector Block 8) : (assembleFrame lines).Inv :=
  (scanExtrema_tracked (matrixOf lines)).frame_inv

/-- A command leaves the frame alone, empties it, or writes an assembled one (R17, R107, R136). -/
theorem exec_frame_cases {i : Instr} {s t : State} (h : exec i s = .next t) :
    t.regs.frame = s.regs.frame ∨ t.regs.frame = none ∨ ∃ lines, t.regs.frame = some (assembleFrame lines) := by
  by_cases hkept : t.regs.frame = s.regs.frame
  · exact .inl hkept
  rcases asm_or_srst_of_exec_frame_ne h hkept with rfl | rfl
  · rcases execAsm_cases s with ⟨lines, p, _, hx⟩ | ⟨e, p, _, hx⟩ | ⟨l, p, _, hx⟩ <;> cases hx.symm.trans h
    · exact .inr (.inr ⟨lines, rfl⟩)
    · exact .inr (.inl rfl)
    · exact .inl rfl
  · cases h; exact .inr (.inl rfl)

/-- Settles O50: a step keeps the frame, empties it, or puts one there whose extrema the tracker has found. -/
theorem stepKeepsFrameInvariant : Obligations.StepKeepsFrameInvariant := by
  intro s t hinv h f hf
  rcases step_data_cases h with ⟨-, hreset⟩ | ⟨cw, i, rest, u, -, -, hu, hregs⟩ | ⟨-, hkept, -⟩
  · rw [hreset] at hf; cases hf
  · rw [hregs] at hf
    rcases exec_frame_cases hu with hkept | hnone | ⟨lines, hnew⟩
    · exact hinv f (hkept ▸ hf)
    · rw [hnone] at hf; cases hf
    · obtain rfl := Option.some.inj (hnew.symm.trans hf)
      exact assembleFrame_inv lines
  · exact hinv f (hkept ▸ hf)

/-! ### Who writes an element -/

/-- Settles O37: of the ways a step writes data, only a command that writes results and a reset change them. -/
theorem resultsWrittenOnlyByCodecAndRmp1 : Obligations.ResultsWrittenOnlyByCodecAndRmp1 := by
  intro s t h hne
  rcases step_data_cases h with ⟨hr, -⟩ | ⟨cw, i, rest, u, hcw, hd, hu, hregs⟩ | ⟨hkept, -, -⟩
  · exact .inr hr
  · rw [hregs] at hne
    exact .inl ⟨cw, i, hcw, hd, writesResults_of_exec_res_ne hu hne⟩
  · exact absurd hkept hne

/-- Settles O38: of the ways a step writes data, only `ASM` and a reset change the frame. -/
theorem frameWrittenOnlyByAsm : Obligations.FrameWrittenOnlyByAsm := by
  intro s t h hne
  rcases step_data_cases h with ⟨hr, -⟩ | ⟨cw, i, rest, u, hcw, hd, hu, hregs⟩ | ⟨-, hkept, -⟩
  · exact .inr (.inr hr)
  · rw [hregs] at hne
    rcases asm_or_srst_of_exec_frame_ne hu hne with rfl | rfl
    · exact .inl (hcw.encodeN (op := 0x20) (decode_instr hd))
    · exact .inr (.inl (hcw.encodeN (op := 0x01) (decode_instr hd)))
  · exact absurd hkept hne

/-- Settles O39: of the ways a step writes data, only `REMAP` and a reset change GRAY. -/
theorem grayWrittenOnlyByRemap : Obligations.GrayWrittenOnlyByRemap := by
  intro s t h hne
  rcases step_data_cases h with ⟨hr, -⟩ | ⟨cw, i, rest, u, hcw, hd, hu, hregs⟩ | ⟨-, -, hkept⟩
  · exact .inr (.inr hr)
  · rw [hregs] at hne
    rcases remap_or_srst_of_exec_gray_ne hu hne with rfl | rfl
    · exact .inl (hcw.encodeN (op := 0x30) (decode_instr hd))
    · exact .inr (.inl (hcw.encodeN (op := 0x01) (decode_instr hd)))
  · exact absurd hkept hne

/-- Settles O40: no completion and no error outcome writes a control register, and no command the host port. -/
theorem commandsLeaveControlRegisters : Obligations.CommandsLeaveControlRegisters := by
  intro i s t hs h
  rcases exec_cases h with ⟨_, rfl⟩ | ⟨hi, _⟩ | ⟨_, ⟨_, _, rfl⟩ | ⟨_, _, _, rfl⟩ | ⟨_, rfl⟩ | ⟨_, rfl⟩⟩ |
    ⟨_, p, ⟨_, rfl⟩ | ⟨_, rfl⟩ | ⟨_, rfl⟩⟩ | ⟨_, ⟨_, _, rfl⟩ | ⟨_, rfl⟩⟩
  case inr.inl => exact absurd hi hs
  all_goals exact ⟨rfl, rfl, rfl, rfl, rfl, rfl⟩

/-! ### The ERR before a command -/

/-- The state with another ERR (R12). -/
def State.setErr (s : State) (e : ErrCode) : State := { s with regs := { s.regs with err := e } }

/-- No command but `ASM` looks at ERR, and each writes it (R12, R157): every completion and every error outcome of the
state with another ERR is that of the state itself, by computation. -/
theorem exec_setErr {i : Instr} (s : State) (e : ErrCode) (hi : i ≠ .asm) : exec i (s.setErr e) = exec i s := by
  cases i with
  | asm => exact absurd rfl hi
  | _ => rfl

/-- An `ASM` that ends writes ERR and does not look at it (R103, R107). -/
theorem execAsm_setErr {s u : State} (e : ErrCode) (hu : execAsm s = .next u) (hw : u.line.waiting = none) :
    execAsm (s.setErr e) = execAsm s := by
  rcases execAsm_cases s with ⟨lines, p, hl, hx⟩ | ⟨e', p, hl, hx⟩ | ⟨l, p, _, hx⟩
  · rw [hx, execAsm, show (s.setErr e).line = s.line from rfl, hl]; rfl
  · rw [hx, execAsm, show (s.setErr e).line = s.line from rfl, hl]; rfl
  · cases hx.symm.trans hu
    cases hw

/-- The response to a command word does not change whether the core waits for a line (R139, R176). -/
theorem waiting_eq_of_answerOk {o : Host.Outcome State Fault Refusal} {t : State} (h : answerOk o = .next t) :
    ∃ u, o = .next u ∧ u.line.waiting = t.line.waiting := by
  obtain ⟨u, hu, rfl⟩ := (answerOk_eq_next_iff o t).1 h
  exact ⟨u, hu, by split <;> rfl⟩

/-- A command word that ends gives the same whatever ERR was (R12, R65, R157). -/
theorem runCommand_setErr {cw : Word} {s t : State} (e : ErrCode) (h : runCommand cw s = .next t)
    (hw : t.line.waiting = none) : runCommand cw (s.setErr e) = runCommand cw s := by
  rcases runCommand_cases cw s with ⟨i, hd, hx⟩ | ⟨why, hd, hx⟩
  · obtain ⟨u, hu, hwait⟩ := waiting_eq_of_answerOk (hx.symm.trans h)
    have hexec : exec i (s.setErr e) = exec i s := by
      by_cases ha : i = .asm
      · subst ha; exact execAsm_setErr e hu (hwait.trans hw)
      · exact exec_setErr s e ha
    simp only [runCommand, hd, hexec]
  · simp only [runCommand, hd]; rfl

/-- A step that takes the write of a command word to CMD runs it (R51, R60). -/
theorem step_command {s : State} {cw : Word} {rest : List Input} (hw : s.line.waiting = none)
    (hp : s.host.pending = .write 0x00 cw :: rest) : step s = runCommand cw (s.withPending rest) := by
  simp only [step, takeInput, hw, hp]; rfl

/-- Settles O36: the step runs the command word, and a command word that ends gives the same whatever ERR was. -/
theorem errIsNotSticky : Obligations.ErrIsNotSticky := by
  rintro s e cw rest hw hp ⟨t, ht, htw⟩
  rw [step_command hw hp] at ht ⊢
  calc step (s.setErr e) = runCommand cw ((s.setErr e).withPending rest) := step_command hw hp
    _ = runCommand cw (s.withPending rest) := runCommand_setErr e ht htw

/-! ### STATUS and the control registers at the host port -/

/-- Settles O33: STATUS is the concatenation of its fields. -/
theorem statusWordFields : Obligations.StatusWordFields := by
  intro r
  have hread : r.hostRead 0x01 = .okData r.statusWord := r.hostRead_addr .status
  have herr : r.statusWord.extractLsb' 0 4 = r.err.code := BitVec.extractLsb'_append_eq_right
  have hzero : r.statusWord.extractLsb' 8 24 = 0 := by
    rw [Regs.statusWord]
    iterate 5 rw [BitVec.extractLsb'_append_eq_of_le (by decide)]
    rfl
  have hflag : r.statusWord.getLsbD 4 = r.rv ∧ r.statusWord.getLsbD 5 = r.fv ∧ r.statusWord.getLsbD 6 = r.gv ∧
      r.statusWord.getLsbD 7 = r.sat := by
    simp only [Regs.statusWord, BitVec.getLsbD_append]
    simp
  obtain ⟨hrv, hfv, hgv, hsat⟩ := hflag
  exact ⟨hread, herr, hrv, hfv, hgv, hsat, hzero, rfl, rfl, rfl, rfl, rfl, rfl, rfl, rfl⟩

/-- A control write changes no field of STATUS (R43). -/
theorem Regs.statusWord_writeControl (r : Regs) (l : Loc) (d : Word) :
    (r.writeControl l d).statusWord = r.statusWord := by
  obtain ⟨herr, hsat, hres, hframe, hgray⟩ := r.writeControl_frame l d
  simp only [Regs.statusWord, Regs.rv, Regs.fv, Regs.gv, herr, hsat, hres, hframe, hgray]

/-- A step that takes a write to a control register stores the data and answers `Ok` (R138). -/
theorem step_controlWrite {s : State} {l : Loc} {d : Word} {rest : List Input} (hl : l.access = .readWrite)
    (hw : s.line.waiting = none) (hp : s.host.pending = .write l.addr d :: rest) :
    step s = .next (((s.withPending rest).writeControl l d).respond .ok) := by
  simp only [step, takeInput, hw, hp, serve, hostWrite, locate_addr]
  cases l <;> cases hl <;> rfl

/-- A step that takes a read answers it (R137). -/
theorem step_read {s : State} {a : Addr} {rest : List Input} (hw : s.line.waiting = none)
    (hp : s.host.pending = .read a :: rest) : step s = .next ((s.withPending rest).respond (s.regs.hostRead a)) := by
  simp only [step, takeInput, hw, hp]; rfl

/-- What a control register holds after a write, extended (R13, R15, R16). -/
theorem valueAt_writeControl (r : Regs) (d : Word) :
    (r.writeControl .ctrl d).valueAt .ctrl = some ((d.extractLsb' 0 1).setWidth 32) ∧
    (r.writeControl .srcLo d).valueAt .srcLo = some ((d.extractLsb' 0 16).signExtend 32) ∧
    (r.writeControl .srcHi d).valueAt .srcHi = some ((d.extractLsb' 0 16).signExtend 32) ∧
    (r.writeControl .tgtLo d).valueAt .tgtLo = some ((d.extractLsb' 0 8).setWidth 32) ∧
    (r.writeControl .tgtHi d).valueAt .tgtHi = some ((d.extractLsb' 0 8).setWidth 32) := by
  refine ⟨?_, rfl, rfl, congrArg some (BitVec.ofNat_toNat ..), congrArg some (BitVec.ofNat_toNat ..)⟩
  show some (zext (d.getLsbD 0).toNat) = _
  congr 1
  have hbit : d.extractLsb' 0 1 = BitVec.ofBool (d.getLsbD 0) := by
    rw [← BitVec.setWidth_eq_extractLsb' (by decide), BitVec.setWidth_one]
  rw [hbit]
  cases d.getLsbD 0 <;> rfl

/-- A control register that a write has just been stored in reads back what it then holds (R137, R138). -/
theorem control_readBack {s : State} {l : Loc} {d v : Word} {rest : List Input} (hl : l.access = .readWrite)
    (hw : s.line.waiting = none) (hp : s.host.pending = .write l.addr d :: .read l.addr :: rest)
    (hv : (s.regs.writeControl l d).valueAt l = some v) :
    ∃ t u, step s = .next t ∧ step t = .next u ∧ u.host = ⟨rest, s.host.responses ++ [.ok, .okData v]⟩ ∧
      u.regs.statusWord = s.regs.statusWord := by
  have hread : (s.regs.writeControl l d).hostRead l.addr = .okData v := by
    simp [Regs.hostRead_addr, hl, hv]
  refine ⟨_, _, step_controlWrite hl hw hp, step_read hw rfl, ?_, s.regs.statusWord_writeControl l d⟩
  simp only [State.respond_regs, State.writeControl_regs, State.withPending_regs, hread]
  simp [State.respond, State.withPending, State.writeControl]

/-- Settles O44: for each control register, the read after the write answers what the register then holds. -/
theorem controlRegistersReadBack : Obligations.ControlRegistersReadBack := by
  intro s d rest a v hw hp hav
  obtain ⟨hctrl, hsrcLo, hsrcHi, htgtLo, htgtHi⟩ := valueAt_writeControl s.regs d
  rcases hav with ⟨rfl, rfl⟩ | ⟨rfl | rfl, rfl⟩ | ⟨rfl | rfl, rfl⟩
  · exact control_readBack (l := .ctrl) rfl hw hp hctrl
  · exact control_readBack (l := .srcLo) rfl hw hp hsrcLo
  · exact control_readBack (l := .srcHi) rfl hw hp hsrcHi
  · exact control_readBack (l := .tgtLo) rfl hw hp htgtLo
  · exact control_readBack (l := .tgtHi) rfl hw hp htgtHi

/-! ### Reset -/

/-- Settles O52: at reset there is no frame, no request has been issued and no answer is waited for. -/
theorem resetMeetsInvariants : Obligations.ResetMeetsInvariants := by
  intro xs
  constructor
  case frame => intro f hf; cases hf
  case requests => intro q hq; cases hq
  case wait => intro l hl; cases hl

end Sys2Proof.Machine

/-! PROOFS. The two ports (20_memory.md): what a host read of each address returns, how the host's transactions are
taken and answered, and the line-read requests. -/

namespace Sys2Proof.Machine

/-! ### The register map -/

/-- Zero extension to a host data word (R7). -/
theorem zext_toNat_eq_setWidth {w : Nat} (x : BitVec w) : zext x.toNat = x.setWidth 32 := BitVec.ofNat_toNat 32 x

/-- A location that is read and holds a value answers it (R42). -/
theorem Regs.hostRead_eq_okData {r : Regs} {l : Loc} {v : Word} (hl : l.access ≠ .writeOnly)
    (hv : r.valueAt l = some v) : r.hostRead l.addr = .okData v := by
  rw [Regs.hostRead_addr, if_neg hl, hv]

/-- A location whose element may hold no value answers the element's value, or NoValue (R23, R42). -/
theorem Regs.hostRead_eq_elim {α : Type} {r : Regs} {l : Loc} {element : Option α} {word : α → Word}
    (hl : l.access ≠ .writeOnly) (hv : r.valueAt l = element.map word) :
    r.hostRead l.addr = element.elim (.busError .noValue) fun x => .okData (word x) := by
  rw [Regs.hostRead_addr, if_neg hl, hv]
  cases element <;> rfl

/-- The unsigned elements, as zero extensions of what they hold (R7, R41). -/
theorem Regs.valueAt_eq_setWidth (r : Regs) :
    r.valueAt .tgtLo = some (r.tgtLo.setWidth 32) ∧ r.valueAt .tgtHi = some (r.tgtHi.setWidth 32) ∧
    (r.valueAt .minp = r.frame.map fun f => f.minp.setWidth 32) ∧
    (r.valueAt .maxp = r.frame.map fun f => f.maxp.setWidth 32) ∧
    ∀ n : Fin 64, r.valueAt (.gray n) = r.gray.map fun g => g[n].setWidth 32 := by
  simp only [Regs.valueAt, zext_toNat_eq_setWidth, true_and, implies_true]

/-- Settles O41: each address is that of its location, and each location answers its element's value, extended. -/
theorem registerMapReads : Obligations.RegisterMapReads := by
  intro r
  have hctrl : r.valueAt .ctrl = some (if r.srcsel then 1 else 0) := by
    rw [Regs.valueAt]; cases r.srcsel <;> rfl
  obtain ⟨htgtLo, htgtHi, hminp, hmaxp, hgray⟩ := r.valueAt_eq_setWidth
  refine ⟨r.hostRead_addr .cmd, r.hostRead_addr .status, Regs.hostRead_eq_okData (l := .ctrl) nofun hctrl,
    ?res0, ?res1, r.hostRead_addr .srcLo, r.hostRead_addr .srcHi,
    Regs.hostRead_eq_okData (l := .tgtLo) nofun htgtLo, Regs.hostRead_eq_okData (l := .tgtHi) nofun htgtHi,
    ?minv, ?minp, ?maxv, ?maxp, fun n => ?frame, fun n => ?gray, fun a ha => ?unmapped⟩
  case res0 => exact (Regs.hostRead_eq_elim (l := .res0) nofun rfl).trans (by cases r.res <;> rfl)
  case res1 => exact (Regs.hostRead_eq_elim (l := .res1) nofun rfl).trans (by cases r.res <;> rfl)
  case minv => exact (Regs.hostRead_eq_elim (l := .minv) nofun rfl).trans (by cases r.frame <;> rfl)
  case minp => exact (Regs.hostRead_eq_elim (l := .minp) nofun hminp).trans (by cases r.frame <;> rfl)
  case maxv => exact (Regs.hostRead_eq_elim (l := .maxv) nofun rfl).trans (by cases r.frame <;> rfl)
  case maxp => exact (Regs.hostRead_eq_elim (l := .maxp) nofun hmaxp).trans (by cases r.frame <;> rfl)
  case frame => exact (Regs.hostRead_eq_elim (l := .frame n) nofun rfl).trans (by cases r.frame <;> rfl)
  case gray => exact (Regs.hostRead_eq_elim (l := .gray n) nofun (hgray n)).trans (by cases r.gray <;> rfl)
  case unmapped => exact r.hostRead_unmapped ((locate_eq_none_iff a).2 ha)

/-! ### Taking and answering the host's transactions -/

/-- Settles O42: a read is answered from the registers, and the input list is all that changes besides. -/
theorem hostReadHasNoSideEffect : Obligations.HostReadHasNoSideEffect := by
  intro s a rest hp hw
  exact step_read hw hp

/-- The write of a command word is answered `Ok`, or its command waits for a line and it gets no response (R139,
R176). -/
theorem runCommand_host {cw : Word} {s t : State} (h : runCommand cw s = .next t) :
    t.host = (s.respond .ok).host ∨ t.line.waiting ≠ none ∧ t.host = s.host := by
  rcases runCommand_cases cw s with ⟨i, _, hx⟩ | ⟨_, _, hx⟩ <;> rw [hx] at h
  · obtain ⟨u, hu, rfl⟩ := (answerOk_eq_next_iff _ _).1 h
    have hhost := exec_host hu
    by_cases hwait : u.line.waiting = none
    · exact .inl (by simp [hwait, State.respond, hhost])
    · exact .inr (by simp [hwait, hhost])
  · cases h; exact .inl rfl

/-- Settles O45: the step runs the command word, whose write is answered `Ok` where the command has ended. -/
theorem commandWriteAnsweredOk : Obligations.CommandWriteAnsweredOk := by
  intro s t cw rest hw hp h hended
  rw [step_command hw hp] at h
  rcases runCommand_host h with hhost | ⟨hwaits, _⟩
  · exact hhost
  · exact absurd hended hwaits

/-- A host transaction gets one response, or the core waits for a line and it gets none (R42, R139, R176). -/
theorem serve_host {x : Input} {s t : State} (hx : x ≠ .hardReset) (h : serve x s = .next t) :
    (∃ r, t.host = (s.respond r).host) ∨ t.line.waiting ≠ none ∧ t.host = s.host := by
  cases x with
  | hardReset => exact absurd rfl hx
  | read a => cases h; exact .inl ⟨_, rfl⟩
  | write a d =>
    rw [serve] at h
    rcases hostWrite_cases a d s with ⟨_, hwrite⟩ | ⟨_, hwrite⟩ | ⟨l, _, _, ⟨_, hwrite⟩ | ⟨_, hwrite⟩⟩ <;> rw [hwrite] at h
    case inr.inl => exact (runCommand_host h).imp_left fun hok => ⟨_, hok⟩
    all_goals cases h; exact .inl ⟨_, rfl⟩

/-- A core that is not stuck takes the oldest input and serves it (R51). -/
theorem step_input {s : State} {x : Input} {rest : List Input} (hw : s.line.waiting = none)
    (hp : s.host.pending = x :: rest) : step s = serve x (s.withPending rest) := by
  simp only [step, takeInput, hw, hp]

/-- Settles O46: the step serves the oldest input, and a transaction that is completed gets one response. -/
theorem inputsTakenInOrder : Obligations.InputsTakenInOrder := by
  intro s t hw h
  constructor
  · intro hp
    simp only [step, takeInput, hw, hp] at h
    cases h; rfl
  · intro x rest hp
    rw [step_input hw hp] at h
    by_cases hx : x = .hardReset
    · subst hx; cases h
      exact ⟨rfl, fun _ => rfl, fun hne => absurd rfl hne⟩
    · rcases serve_host hx h with ⟨r, hhost⟩ | ⟨hwaits, hhost⟩
      · exact ⟨by rw [hhost]; rfl, fun hr => absurd hr hx, fun _ _ => ⟨r, by rw [hhost]; rfl⟩⟩
      · exact ⟨by rw [hhost]; rfl, fun hr => absurd hr hx, fun _ hended => absurd hended hwaits⟩

/-! ### The line-read requests -/

/-- What `ASM` does at the line-read port (R46, R107, R176): it ends after the requests of some first lines, or it has
issued those up to a line that it waits for. -/
theorem execAsm_line {s u : State} (h : execAsm s = .next u) :
    (∃ m ≤ 8, u.line = s.line.afterLines m) ∨
      ∃ l < 8, u.line = { s.line.afterLines (l + 1) with waiting := some l } := by
  obtain ⟨b, hgood | ⟨m, hm, hgood, hsilent | ⟨e, he⟩⟩⟩ := readLines_cases 8 s.line
  · rw [execAsm, readLines_good hgood] at h
    cases h; exact .inl ⟨8, le_rfl, rfl⟩
  · rw [execAsm, readLines_unanswered hm hgood hsilent] at h
    cases h; exact .inr ⟨m, hm, rfl⟩
  · rw [execAsm, readLines_failed hm hgood he] at h
    cases h; exact .inl ⟨m + 1, hm, rfl⟩

/-- How a step can change the line-read port (R46, R170, R176): not at all, by a hardware reset, which ends a wait, or
by `ASM`. -/
theorem step_line_cases {s t : State} (h : step s = .next t) :
    t.line = s.line ∨ t.line = s.line.endWait ∨
      (CommandTaken s 0x20000000 ∧ ∃ rest u, execAsm (s.withPending rest) = .next u ∧ t.line = u.line) := by
  rcases step_cases h with ⟨l, hl, rfl⟩ | ⟨hw, ⟨_, rfl⟩ | ⟨a, rest, _, rfl⟩ | ⟨rest, hp, rfl⟩ |
    ⟨cw, rest, hp, ⟨i, u, hd, hu, rfl⟩ | ⟨_, _, rfl⟩⟩ | ⟨a, d, rest, _, _, ⟨_, rfl⟩ | ⟨l, rfl⟩⟩⟩
  case inl =>
    by_cases hm : Input.hardReset ∈ s.host.pending
    · exact .inr (.inl (by simp [awaitReset, hm]))
    · exact .inl (by simp [awaitReset, hm])
  case inr.inr.inr.inl => exact .inr (.inl rfl)
  case inr.inr.inr.inr.inl.inl =>
    by_cases ha : i = .asm
    · subst ha
      have htaken : CommandTaken s cw := ⟨hw, rest, hp⟩
      exact .inr (.inr ⟨htaken.encodeN (op := 0x20) (decode_instr hd), rest, u, hu, by split <;> rfl⟩)
    · obtain ⟨v, hv, hline, _⟩ := exec_of_ne_asm i (s.withPending rest) ha
      cases hv.symm.trans hu
      exact .inl (by split <;> exact hline)
  all_goals exact .inl rfl

/-- Settles O26: of the ways a step changes the line-read port, `ASM` alone issues requests. -/
theorem onlyAsmReadsLines : Obligations.OnlyAsmReadsLines := by
  intro s t h hne
  rcases step_line_cases h with hkept | hreset | ⟨htaken, _⟩
  · exact absurd (congrArg LinePort.requests hkept) hne
  · exact absurd (congrArg LinePort.requests hreset) hne
  · exact htaken

/-- After the requests of the lines 0..m−1 the trace holds these besides what it held (R108). -/
theorem LinePort.mem_afterLines_requests {p : LinePort} {m : Nat} {q : LineRequest}
    (hq : q ∈ (p.afterLines m).requests) : q ∈ p.requests ∨ ∃ i < m, q = lineRequest i := by
  simpa [LinePort.afterLines, eq_comm] using hq

/-- The last of the requests of the lines 0..l is that of line `l` (R46). -/
theorem LinePort.getLast?_afterLines_succ (p : LinePort) (l : Nat) :
    (p.afterLines (l + 1)).requests.getLast? = some (lineRequest l) := by
  rw [← LinePort.afterLines_succ, LinePort.afterRequest_requests, List.getLast?_concat]

/-- A step adds no request to the trace but those of up to 8 first lines (R45, R46). -/
theorem step_keeps_requestsInv {s t : State} (hinv : RequestsInv s) (h : step s = .next t) : RequestsInv t := by
  have hadded : ∀ m ≤ 8, ∀ q ∈ (s.line.afterLines m).requests, ∃ i : Fin 8, q = lineRequest i.val := by
    intro m hm q hq
    rcases LinePort.mem_afterLines_requests hq with hq | ⟨i, hi, rfl⟩
    · exact hinv q hq
    · exact ⟨⟨i, by omega⟩, rfl⟩
  rw [RequestsInv]
  rcases step_line_cases h with hline | hline | ⟨_, rest, u, hu, hline⟩ <;> rw [hline]
  · exact hinv
  · exact hinv
  · rcases execAsm_line hu with ⟨m, hm, hport⟩ | ⟨l, hl, hport⟩ <;> rw [hport]
    · exact hadded m hm
    · exact hadded (l + 1) hl

/-- A core comes to wait for a line only by an `ASM` that has just issued that line's request (R176). -/
theorem step_keeps_waitInv {s t : State} (hinv : WaitInv s) (h : step s = .next t) : WaitInv t := by
  rw [WaitInv]
  rcases step_line_cases h with hline | hline | ⟨htaken, rest, u, hu, hline⟩ <;> rw [hline]
  · exact hinv
  · intro l hl; cases hl
  · rcases execAsm_line hu with ⟨m, _, hport⟩ | ⟨l, _, hport⟩ <;> rw [hport]
    · intro l hl
      obtain ⟨hw, _⟩ := htaken
      cases hw.symm.trans hl
    · intro k hk
      cases hk
      exact LinePort.getLast?_afterLines_succ s.line l

/-- Settles O51: a step keeps both invariants of the request trace. -/
theorem stepKeepsRequestInvariants : Obligations.StepKeepsRequestInvariants := by
  intro s t hrequests hwait h
  simp only [← lineRequest_eq] at hrequests hwait ⊢
  exact ⟨step_keeps_requestsInv hrequests h, step_keeps_waitInv hwait h⟩

end Sys2Proof.Machine

/-! PROOFS. The encoding (30_encoding.md): the decoder against the opcode table, the command word at the host port, and
the listing. -/

namespace Sys2Proof

/-! ### The fields of a command's words -/

/-- The words of a command, by their fields: its opcode, its reserved field zero, its operands (R61 to R64). -/
def Instr.HasFields (i : Instr) (cw : Word) : Prop :=
  match i with
  | .nop => opcodeField cw = 0x00 ∧ reservedN cw = 0
  | .srst => opcodeField cw = 0x01 ∧ reservedN cw = 0
  | .dec12 raw12 => opcodeField cw = 0x10 ∧ reservedR12 cw = 0 ∧ raw12Field cw = raw12
  | .enc12 imm16 => opcodeField cw = 0x11 ∧ reserved16 cw = 0 ∧ imm16Field cw = imm16
  | .decpx lo hi => opcodeField cw = 0x12 ∧ reserved16 cw = 0 ∧ loField cw = lo ∧ hiField cw = hi
  | .splitp raw12 => opcodeField cw = 0x13 ∧ reservedR12 cw = 0 ∧ raw12Field cw = raw12
  | .splitl raw12 => opcodeField cw = 0x14 ∧ reservedR12 cw = 0 ∧ raw12Field cw = raw12
  | .therm hi lo => opcodeField cw = 0x15 ∧ reserved16 cw = 0 ∧ hiField cw = hi ∧ loField cw = lo
  | .asm => opcodeField cw = 0x20 ∧ reservedN cw = 0
  | .remap => opcodeField cw = 0x30 ∧ reservedN cw = 0
  | .rmp1 imm16 => opcodeField cw = 0x31 ∧ reserved16 cw = 0 ∧ imm16Field cw = imm16

/-- The decoder reads a command from exactly the words that have its fields (R61 to R65). -/
theorem decode_eq_instr_iff {cw : Word} {i : Instr} : decode cw = .instr i ↔ i.HasFields cw := by
  constructor
  · intro h
    have hfields := decode_instr h
    cases i <;> exact hfields
  · intro h
    cases i with
    | nop | srst | asm | remap =>
      obtain ⟨hop, hreserved⟩ := h
      simp [decode, hop, ifReservedZero, hreserved]
    | dec12 | enc12 | splitp | splitl | rmp1 =>
      obtain ⟨hop, hreserved, rfl⟩ := h
      simp [decode, hop, ifReservedZero, hreserved]
    | decpx | therm =>
      obtain ⟨hop, hreserved, rfl, rfl⟩ := h
      simp [decode, hop, ifReservedZero, hreserved]

/-- The word of a command has the command's fields (R62). -/
theorem Instr.hasFields_encode (i : Instr) : i.HasFields (encode i) := by
  cases i with
  | nop | srst | asm | remap => exact ⟨opcodeField_encodeN _, reservedN_encodeN _⟩
  | dec12 raw12 | splitp raw12 | splitl raw12 =>
    exact ⟨opcodeField_encodeR12 _ _, reservedR12_encodeR12 _ _, raw12Field_encodeR12 _ _⟩
  | enc12 imm16 | rmp1 imm16 =>
    exact ⟨opcodeField_encodeS16 _ _, reserved16_encodeS16 _ _, imm16Field_encodeS16 _ _⟩
  | decpx lo hi =>
    exact ⟨opcodeField_encodeB2 _ _ _, reserved16_encodeB2 _ _ _, loField_encodeB2 _ _ _, hiField_encodeB2 _ _ _⟩
  | therm hi lo =>
    exact ⟨opcodeField_encodeB2 _ _ _, reserved16_encodeB2 _ _ _, hiField_encodeB2 _ _ _, loField_encodeB2 _ _ _⟩

/-- A command's word decodes to it (R64). -/
theorem decode_encode (i : Instr) : decode (encode i) = .instr i := decode_eq_instr_iff.2 i.hasFields_encode

/-! ### A word with a command's fields is the command's word -/

/-- Format N (R62). -/
theorem encodeN_of_fields {cw : Word} {op : Byte} (hop : opcodeField cw = op) (hreserved : reservedN cw = 0) :
    encodeN op = cw :=
  word_ext ((opcodeField_encodeN op).trans hop.symm) ((reservedN_encodeN op).trans hreserved.symm)

/-- Format R12 (R62). -/
theorem encodeR12_of_fields {cw : Word} {op : Byte} (hop : opcodeField cw = op) (hreserved : reservedR12 cw = 0) :
    encodeR12 op (raw12Field cw) = cw := by
  apply word_ext
  · rw [opcodeField_encodeR12, hop]
  · rw [reservedN_of_reservedR12 (reservedR12_encodeR12 _ _), raw12Field_encodeR12,
      ← reservedN_of_reservedR12 hreserved]

/-- Format S16 (R62). -/
theorem encodeS16_of_fields {cw : Word} {op : Byte} (hop : opcodeField cw = op) (hreserved : reserved16 cw = 0) :
    encodeS16 op (imm16Field cw) = cw := by
  apply word_ext
  · rw [opcodeField_encodeS16, hop]
  · rw [reservedN_of_reserved16 (reserved16_encodeS16 _ _), imm16Field_encodeS16, ← reservedN_of_reserved16 hreserved]

/-- Format B2 (R62). -/
theorem encodeB2_of_fields {cw : Word} {op : Byte} (hop : opcodeField cw = op) (hreserved : reserved16 cw = 0) :
    encodeB2 op (hiField cw) (loField cw) = cw := by
  apply word_ext
  · rw [opcodeField_encodeB2, hop]
  · rw [reservedN_of_reserved16 (reserved16_encodeB2 _ _ _), imm16Field_eq_bytes, hiField_encodeB2, loField_encodeB2,
      ← imm16Field_eq_bytes, ← reservedN_of_reserved16 hreserved]

/-- A word that decodes is the word of the command it decodes to (R62, R64). -/
theorem encode_of_decode {cw : Word} {i : Instr} (h : decode cw = .instr i) : encode i = cw := by
  have hfields := decode_eq_instr_iff.1 h
  cases i with
  | nop | srst | asm | remap =>
    obtain ⟨hop, hreserved⟩ := hfields
    exact encodeN_of_fields hop hreserved
  | dec12 | splitp | splitl =>
    obtain ⟨hop, hreserved, rfl⟩ := hfields
    exact encodeR12_of_fields hop hreserved
  | enc12 | rmp1 =>
    obtain ⟨hop, hreserved, rfl⟩ := hfields
    exact encodeS16_of_fields hop hreserved
  | decpx | therm =>
    obtain ⟨hop, hreserved, rfl, rfl⟩ := hfields
    exact encodeB2_of_fields hop hreserved

/-! ### The opcode table -/

/-- Every command's word matches the command's row, and the row is in the table (R64). -/
theorem encode_matches_row (i : Instr) : Laws.EncodeMatchesRow.Statement i := by
  cases i with
  | nop => exact Laws.EncodeMatchesRow.nop
  | srst => exact Laws.EncodeMatchesRow.srst
  | dec12 raw12 => exact Laws.EncodeMatchesRow.dec12 raw12
  | enc12 imm16 => exact Laws.EncodeMatchesRow.enc12 imm16
  | decpx lo hi => exact Laws.EncodeMatchesRow.decpx lo hi
  | splitp raw12 => exact Laws.EncodeMatchesRow.splitp raw12
  | splitl raw12 => exact Laws.EncodeMatchesRow.splitl raw12
  | therm hi lo => exact Laws.EncodeMatchesRow.therm hi lo
  | asm => exact Laws.EncodeMatchesRow.asm
  | remap => exact Laws.EncodeMatchesRow.remap
  | rmp1 imm16 => exact Laws.EncodeMatchesRow.rmp1 imm16

/-- The rows of the table are the commands' rows (R64). -/
theorem mem_opcodeTable_iff {r : OpcodeRow} : r ∈ opcodeTable ↔ ∃ i : Instr, i.row = r := by
  constructor
  · intro h
    simp only [opcodeTable, List.mem_cons, List.not_mem_nil, or_false] at h
    rcases h with h | h | h | h | h | h | h | h | h | h | h <;> exact ⟨_, h.symm⟩
  · rintro ⟨i, rfl⟩
    exact (encode_matches_row i).2

/-- In a field that a row's mask covers, a word that matches the row has the pattern's bits (R64). -/
theorem extractLsb'_of_match {cw mask pattern : Word} {start len : Nat} (h : cw &&& mask = pattern)
    (hcovered : mask.extractLsb' start len = BitVec.allOnes len) :
    cw.extractLsb' start len = pattern.extractLsb' start len := by
  rw [← h, BitVec.extractLsb'_and, hcovered, BitVec.and_allOnes]

/-- What the mask of format N fixes (R62, R64). -/
theorem fieldsN_of_match {cw : Word} {op : Byte} (h : cw &&& 0xFFFFFFFF = encodeN op) :
    opcodeField cw = op ∧ reservedN cw = 0 :=
  ⟨(extractLsb'_of_match h rfl).trans (opcodeField_encodeN op),
    (extractLsb'_of_match h rfl).trans (reservedN_encodeN op)⟩

/-- What the mask of format R12 fixes (R62, R64). -/
theorem fieldsR12_of_match {cw : Word} {op : Byte} (h : cw &&& 0xFFFFF000 = encodeR12 op 0) :
    opcodeField cw = op ∧ reservedR12 cw = 0 :=
  ⟨(extractLsb'_of_match h rfl).trans (opcodeField_encodeR12 op 0),
    (extractLsb'_of_match h rfl).trans (reservedR12_encodeR12 op 0)⟩

/-- What the mask of the formats S16 and B2 fixes (R62, R64). -/
theorem fields16_of_match {cw : Word} {op : Byte} (h : cw &&& 0xFFFF0000 = encodeS16 op 0) :
    opcodeField cw = op ∧ reserved16 cw = 0 :=
  ⟨(extractLsb'_of_match h rfl).trans (opcodeField_encodeS16 op 0),
    (extractLsb'_of_match h rfl).trans (reserved16_encodeS16 op 0)⟩

/-- A word that matches the row of a command has the fields of a command of that row (R64): the mask covers the opcode
and the reserved field, and the operands are free. -/
theorem hasFields_of_match {cw : Word} {i : Instr} (h : cw &&& i.row.mask = i.row.pattern) :
    ∃ j : Instr, j.HasFields cw ∧ j.row = i.row := by
  cases i with
  | nop => exact ⟨.nop, fieldsN_of_match (op := 0x00) h, rfl⟩
  | srst => exact ⟨.srst, fieldsN_of_match (op := 0x01) h, rfl⟩
  | asm => exact ⟨.asm, fieldsN_of_match (op := 0x20) h, rfl⟩
  | remap => exact ⟨.remap, fieldsN_of_match (op := 0x30) h, rfl⟩
  | dec12 =>
    obtain ⟨hop, hreserved⟩ := fieldsR12_of_match (op := 0x10) h
    exact ⟨.dec12 _, ⟨hop, hreserved, rfl⟩, rfl⟩
  | splitp =>
    obtain ⟨hop, hreserved⟩ := fieldsR12_of_match (op := 0x13) h
    exact ⟨.splitp _, ⟨hop, hreserved, rfl⟩, rfl⟩
  | splitl =>
    obtain ⟨hop, hreserved⟩ := fieldsR12_of_match (op := 0x14) h
    exact ⟨.splitl _, ⟨hop, hreserved, rfl⟩, rfl⟩
  | enc12 =>
    obtain ⟨hop, hreserved⟩ := fields16_of_match (op := 0x11) h
    exact ⟨.enc12 _, ⟨hop, hreserved, rfl⟩, rfl⟩
  | rmp1 =>
    obtain ⟨hop, hreserved⟩ := fields16_of_match (op := 0x31) h
    exact ⟨.rmp1 _, ⟨hop, hreserved, rfl⟩, rfl⟩
  | decpx =>
    obtain ⟨hop, hreserved⟩ := fields16_of_match (op := 0x12) h
    exact ⟨.decpx _ _, ⟨hop, hreserved, rfl, rfl⟩, rfl⟩
  | therm =>
    obtain ⟨hop, hreserved⟩ := fields16_of_match (op := 0x15) h
    exact ⟨.therm _ _, ⟨hop, hreserved, rfl, rfl⟩, rfl⟩

/-- A word matches the row of a command exactly when it decodes to a command of that row (R64). -/
theorem matches_row_iff (cw : Word) (i : Instr) :
    cw &&& i.row.mask = i.row.pattern ↔ ∃ j, decode cw = .instr j ∧ j.row = i.row := by
  constructor
  · intro h
    obtain ⟨j, hfields, hrow⟩ := hasFields_of_match h
    exact ⟨j, decode_eq_instr_iff.2 hfields, hrow⟩
  · rintro ⟨j, hd, hrow⟩
    obtain ⟨hmatch, _⟩ := encode_matches_row j
    rw [← hrow, ← encode_of_decode hd]
    exact eq_of_beq hmatch

/-- A word matches no row exactly when it is illegal (R64, R65). -/
theorem matches_no_row_iff (cw : Word) :
    (∀ r ∈ opcodeTable, cw &&& r.mask ≠ r.pattern) ↔ ∃ why, decode cw = .illegal why := by
  cases hd : decode cw with
  | instr i =>
    have hmatch : cw &&& i.row.mask = i.row.pattern := (matches_row_iff cw i).2 ⟨i, hd, rfl⟩
    exact iff_of_false (fun h => h i.row (mem_opcodeTable_iff.2 ⟨i, rfl⟩) hmatch) nofun
  | illegal why =>
    refine iff_of_true (fun r hr hmatch => ?_) ⟨why, rfl⟩
    obtain ⟨i, rfl⟩ := mem_opcodeTable_iff.1 hr
    obtain ⟨j, hj, _⟩ := (matches_row_iff cw i).1 hmatch
    cases hd.symm.trans hj

/-- Settles O4: each row is a command's, a word matches it when it decodes to a command of that row, and it decodes to
one command at most. -/
theorem decodeFollowsOpcodeTable : Obligations.DecodeFollowsOpcodeTable := by
  intro cw
  refine ⟨?_, ?_, matches_no_row_iff cw⟩
  · intro r hr
    obtain ⟨i, rfl⟩ := mem_opcodeTable_iff.1 hr
    exact matches_row_iff cw i
  · intro r₁ hr₁ r₂ hr₂ hmatch₁ hmatch₂
    obtain ⟨i₁, rfl⟩ := mem_opcodeTable_iff.1 hr₁
    obtain ⟨i₂, rfl⟩ := mem_opcodeTable_iff.1 hr₂
    obtain ⟨j₁, hd₁, hrow₁⟩ := (matches_row_iff cw i₁).1 hmatch₁
    obtain ⟨j₂, hd₂, hrow₂⟩ := (matches_row_iff cw i₂).1 hmatch₂
    cases hd₁.symm.trans hd₂
    exact hrow₁.symm.trans hrow₂

end Sys2Proof

namespace Sys2Proof.Machine

/-! ### The command word at the host port -/

/-- Settles O5: the word is illegal, and running an illegal word sets ERR alone and answers `Ok`. -/
theorem illegalWordOnlySetsErr : Obligations.IllegalWordOnlySetsErr := by
  intro s cw rest hw hp hrows
  obtain ⟨why, hd⟩ := (matches_no_row_iff cw).1 hrows
  have hrun : runCommand cw (s.withPending rest) = .next ((s.withPending rest).raiseIllegal.respond .ok) := by
    simp only [runCommand, hd]
  exact ⟨(step_command hw hp).trans hrun, rfl⟩

/-- A step that takes the word of a command runs the command and answers the write if it has ended (R60, R139). -/
theorem step_instr {s : State} {cw : Word} {rest : List Input} {i : Instr} (hw : s.line.waiting = none)
    (hp : s.host.pending = .write 0x00 cw :: rest) (hd : decode cw = .instr i) :
    step s = answerOk (exec i (s.withPending rest)) := by
  rw [step_command hw hp]
  simp only [runCommand, hd]

/-- Settles O6: the step runs the decoded command, and `answerOk` is the answer the statement writes out. -/
theorem stepRunsDecodedCommand : Obligations.StepRunsDecodedCommand := by
  intro s cw rest i hw hp hd
  exact step_instr hw hp hd

/-- `withFetchWord` puts the write of the word to CMD before the other inputs (log entry 2). -/
theorem withFetchWord_eq {s : State} (hw : s.line.waiting = none) (cw : Word) :
    s.withFetchWord 32 cw.toNat = s.withPending (.write 0x00 cw :: s.host.pending) := by
  have hword : BitVec.ofNat 32 (cw.toNat % 2 ^ 32) = cw := by
    rw [Nat.mod_eq_of_lt cw.isLt, BitVec.ofNat_toNat, BitVec.setWidth_eq]
  have hline : s.line.endWait = s.line := by rw [LinePort.endWait, ← hw]
  rw [State.withFetchWord, withCommandFirst, hword, hline]
  rfl

/-- Settles O7: the step takes the word from where it was put, and the word decodes to the command. -/
theorem fetchWordRunsCommand : Obligations.FetchWordRunsCommand := by
  intro s t i hw hexec hended
  rw [withFetchWord_eq hw]
  have hstep := step_instr (s := s.withPending (.write 0x00 (encode i) :: s.host.pending)) hw rfl (decode_encode i)
  exact hstep.trans ((answerOk_eq_next_iff _ _).2 ⟨t, hexec, (if_pos hended).symm⟩)

/-! ### The operands of a listing -/

/-- The low bits of an integer's word are the integer's word at the smaller width (R7). -/
theorem extractLsb'_ofInt {v w : Nat} (h : w ≤ v) (n : Int) :
    (BitVec.ofInt v n).extractLsb' 0 w = BitVec.ofInt w n := by
  have hdvd : ((2 ^ w : Nat) : Int) ∣ ((2 ^ v : Nat) : Int) := by exact_mod_cast Nat.pow_dvd_pow 2 h
  apply BitVec.eq_of_toInt_eq
  rw [← BitVec.setWidth_eq_extractLsb' h, BitVec.toInt_setWidth, BitVec.toNat_ofInt, BitVec.toInt_ofInt,
    Int.toNat_of_nonneg (Int.emod_nonneg _ (by positivity)), Int.bmod_def, Int.emod_emod_of_dvd _ hdvd, Int.bmod_def]

/-- An unsigned operand that fits its field is the field's value (R63). -/
theorem toNat_ofInt_of_range {w : Nat} {n : Int} (h0 : 0 ≤ n) (h1 : n < 2 ^ w) :
    ((BitVec.ofInt w n).toNat : Int) = n := by
  rw [BitVec.toNat_ofInt, Nat.cast_pow, Nat.cast_ofNat, Int.emod_eq_of_lt h0 h1, Int.toNat_of_nonneg h0]

/-- The range of a raw code (R63, R67). -/
theorem wellFormed_raw12_iff (r : Int) : WellFormed.raw12 r = true ↔ 0 ≤ r ∧ r ≤ 4095 := by
  simp [WellFormed.raw12]

/-- The range of a signed 16-bit operand (R63, R67). -/
theorem wellFormed_imm16_iff (v : Int) : WellFormed.imm16 v = true ↔ -32768 ≤ v ∧ v ≤ 32767 := by
  simp [WellFormed.imm16]

/-- The range of a pair of bytes (R63, R67). -/
theorem wellFormed_bytes_iff (a b : Int) :
    (WellFormed.byte a && WellFormed.byte b) = true ↔ 0 ≤ a ∧ a ≤ 255 ∧ 0 ≤ b ∧ b ≤ 255 := by
  simp [WellFormed.byte, and_assoc]

/-- A listing command whose operands are not all in range is an error of the listing (R67). -/
theorem assemble_eq_none {c : ListingCmd} (h : ¬ c.wellFormed = true) : assemble c = none := if_neg h

/-- Settles O49: in range the operand's field holds it, and out of range the command is not well formed. -/
theorem listingOperandsKeepTheirValue : Obligations.ListingOperandsKeepTheirValue := by
  refine ⟨?raw, ?rawOut, ?imm, ?immOut, ?bytes, ?bytesOut⟩
  case raw =>
    intro r ⟨hmin, hmax⟩
    have hwf := (wellFormed_raw12_iff r).2 ⟨hmin, hmax⟩
    exact ⟨BitVec.ofInt 12 r, toNat_ofInt_of_range hmin (by omega), if_pos hwf, if_pos hwf, if_pos hwf⟩
  case rawOut =>
    intro r hr
    have hwf : ¬ WellFormed.raw12 r = true := by rw [wellFormed_raw12_iff]; omega
    exact ⟨assemble_eq_none hwf, assemble_eq_none hwf, assemble_eq_none hwf⟩
  case imm =>
    intro v ⟨hmin, hmax⟩
    have hwf := (wellFormed_imm16_iff v).2 ⟨hmin, hmax⟩
    exact ⟨BitVec.ofInt 16 v, BitVec.toInt_ofInt_eq_self (by decide) hmin (by omega), if_pos hwf, if_pos hwf⟩
  case immOut =>
    intro v hv
    have hwf : ¬ WellFormed.imm16 v = true := by rw [wellFormed_imm16_iff]; omega
    exact ⟨assemble_eq_none hwf, assemble_eq_none hwf⟩
  case bytes =>
    intro a b ⟨hamin, hamax, hbmin, hbmax⟩
    have hwf := (wellFormed_bytes_iff a b).2 ⟨hamin, hamax, hbmin, hbmax⟩
    exact ⟨BitVec.ofInt 8 a, BitVec.ofInt 8 b, toNat_ofInt_of_range hamin (by omega),
      toNat_ofInt_of_range hbmin (by omega), if_pos hwf, if_pos hwf⟩
  case bytesOut =>
    intro a b hab
    have hwf : ¬ (WellFormed.byte a && WellFormed.byte b) = true := by rw [wellFormed_bytes_iff]; omega
    exact ⟨assemble_eq_none hwf, assemble_eq_none hwf⟩

/-! ### The pseudo-instructions -/

/-- A run goes on after a write to a control register (R51, R138). -/
theorem run_controlWrite {s : State} {l : Loc} {d : Word} {rest : List Input} (k : Nat) (hl : l.access = .readWrite)
    (hw : s.line.waiting = none) (hp : s.host.pending = .write l.addr d :: rest) :
    Sys2Proof.core.run (k + 1) s =
      Sys2Proof.core.run k (((s.withPending rest).writeControl l d).respond .ok) := by
  have hstep : Sys2Proof.core.step s = .next (((s.withPending rest).writeControl l d).respond .ok) :=
    step_controlWrite hl hw hp
  simp only [Host.Core.run, hstep]

/-- The state after control writes that were all the inputs: each stored, in order, and answered `Ok` (R42, R138). -/
def State.afterWrites (s : State) (ws : List (Loc × Word)) : State :=
  { s with
    regs := ws.foldl (fun r w => r.writeControl w.1 w.2) s.regs
    host := ⟨[], s.host.responses ++ List.replicate ws.length .ok⟩ }

/-- Control writes, and nothing else at the port, are taken one after the other (R51). -/
theorem run_controlWrites (ws : List (Loc × Word)) (s : State) (haccess : ∀ w ∈ ws, w.1.access = .readWrite)
    (hw : s.line.waiting = none) :
    Sys2Proof.core.run ws.length (s.withPending (ws.map fun w => .write w.1.addr w.2)) = .next (s.afterWrites ws) := by
  induction ws generalizing s with
  | nil => simp [Host.Core.run, State.afterWrites, State.withPending]
  | cons w ws ih =>
    obtain ⟨hhead, htail⟩ := List.forall_mem_cons.1 haccess
    have hfirst := run_controlWrite (s := s.withPending ((w :: ws).map fun w => .write w.1.addr w.2)) ws.length hhead hw
      rfl
    have hrest := ih ((s.writeControl w.1 w.2).respond .ok) htail hw
    rw [List.length_cons, hfirst]
    refine hrest.trans ?_
    simp [State.afterWrites, List.replicate_succ]

/-- Settles O48: each expansion is a list of control writes, and each register gets the low bits of its operand. -/
theorem pseudoInstructionsSetRanges : Obligations.PseudoInstructionsSetRanges := by
  intro s lo hi hw
  refine ⟨⟨_, rfl, rfl, ?srcman⟩, ⟨_, rfl, rfl, ?srcauto⟩, fun hrange => ⟨_, ?tgtExpand, rfl, ?tgt⟩⟩
  case srcman =>
    rw [← extractLsb'_ofInt (v := 32) (w := 16) (by decide) lo,
      ← extractLsb'_ofInt (v := 32) (w := 16) (by decide) hi]
    exact run_controlWrites [(.srcLo, BitVec.ofInt 32 lo), (.srcHi, BitVec.ofInt 32 hi), (.ctrl, 1)] s
      (by simp [Loc.access]) hw
  case srcauto =>
    exact run_controlWrites [(.ctrl, 0)] s (by simp [Loc.access]) hw
  case tgtExpand =>
    exact if_pos ((wellFormed_bytes_iff lo hi).2 hrange)
  case tgt =>
    rw [← extractLsb'_ofInt (v := 32) (w := 8) (by decide) lo,
      ← extractLsb'_ofInt (v := 32) (w := 8) (by decide) hi]
    exact run_controlWrites [(.tgtLo, BitVec.ofInt 32 lo), (.tgtHi, BitVec.ofInt 32 hi)] s (by simp [Loc.access]) hw

end Sys2Proof.Machine

/-! PROOFS. The codec (41_codec.md): what each command writes, where it raises DomainError, the round trips of the
functions, and what a result depends on. -/

namespace Sys2Proof.Machine

/-! ### The functions as numbers -/

/-- A zero-extended field that is no wider than a word keeps its value (R7). -/
theorem zext_toNat_of_le {w : Nat} (hw : w ≤ 32) (x : BitVec w) : (zext x.toNat).toNat = x.toNat := by
  rw [zext_toNat_eq_setWidth, BitVec.toNat_setWidth_of_le hw]

/-- A decoded code in a result is the code under the sign rule (R7, R80). -/
theorem sext_decode12_toInt (raw : Raw12) :
    (sext (decode12 raw)).toInt = if raw.toNat < 2048 then (raw.toNat : Int) else (raw.toNat : Int) - 4096 := by
  obtain ⟨hmin, hmax⟩ := decode12_range raw
  exact sext_toInt (by omega)

/-- Decoding keeps a code modulo 4096 (R80). -/
theorem decode12_emod (raw : Raw12) : decode12 raw % 4096 = raw.toNat := by
  have hlt := raw.isLt
  unfold decode12
  split <;> omega

/-- Every value of the legal domain has a code (R81). -/
theorem encode12_of_range {v : Int} (hmin : -2048 ≤ v) (hmax : v ≤ 2047) :
    ∃ raw, encode12 v = some raw ∧ (raw.toNat : Int) = v % 4096 := by
  cases hcode : encode12 v with
  | none =>
    have hout := (encode12_eq_none_iff v).1 hcode
    omega
  | some raw =>
    obtain ⟨-, -, hraw⟩ := encode12_eq_some hcode
    exact ⟨raw, rfl, hraw⟩

/-- Below a high byte of 0x10 the bytes decode, under the sign rule at 10 bits (R84). -/
theorem decodeTherm_of_lt {hi lo : Byte} (h : hi.toNat < 0x10) :
    ∃ q, decodeTherm hi lo = some q ∧
      q = if thermCombine hi lo < 512 then (thermCombine hi lo : Int) else (thermCombine hi lo : Int) - 1024 := by
  cases hcode : decodeTherm hi lo with
  | none =>
    have hout := (decodeTherm_eq_none_iff hi lo).1 hcode
    omega
  | some q => exact ⟨q, rfl, (decodeTherm_eq_some hcode).2⟩

/-- The limit split does not look at bits 8 and 7 (R83). -/
theorem splitLimit_and_mask (raw : Raw12) : splitLimit (raw &&& 0xE7F) = splitLimit raw := by
  have hhigh : (raw &&& 0xE7F) >>> 9 = raw >>> 9 := by
    have hmask : (0xE7F : Raw12) >>> 9 = BitVec.allOnes 12 >>> 9 := rfl
    rw [BitVec.ushiftRight_and_distrib, hmask, ← BitVec.ushiftRight_and_distrib, BitVec.and_allOnes]
  have hlow : raw &&& 0xE7F &&& 0x7F = raw &&& 0x7F := BitVec.and_assoc raw 0xE7F 0x7F
  rw [splitLimit, hhigh, hlow, splitLimit]

/-! ### The two commands that can fail -/

/-- `ENC12` of a value with a code (R86). -/
theorem exec_enc12_of_some {imm16 : BitVec 16} {raw : Raw12} (h : encode12 imm16.toInt = some raw) (s : State) :
    exec (.enc12 imm16) s = .next (s.completeCodec (zext raw.toNat) 0) := by
  simp only [exec, execEnc12, immValue, h]

/-- `ENC12` of a value without a code (R86). -/
theorem exec_enc12_of_none {imm16 : BitVec 16} (h : encode12 imm16.toInt = none) (s : State) :
    exec (.enc12 imm16) s = .next (s.raise .codec .domainError) := by
  simp only [exec, execEnc12, immValue, h]

/-- `THERM` of bytes that decode (R90). -/
theorem exec_therm_of_some {hi lo : Byte} {q : Int} (h : decodeTherm hi lo = some q) (s : State) :
    exec (.therm hi lo) s = .next (s.completeCodec (sext q) (zext (thermCombine hi lo))) := by
  simp only [exec, execTherm, h]

/-- `THERM` of bytes that do not decode (R90). -/
theorem exec_therm_of_none {hi lo : Byte} (h : decodeTherm hi lo = none) (s : State) :
    exec (.therm hi lo) s = .next (s.raise .codec .domainError) := by
  simp only [exec, execTherm, h]

/-! ### What each command writes -/

/-- Settles O11: RES0 is the decoded code, sign-extended. -/
theorem dec12SignExtendsCode : Obligations.Dec12SignExtendsCode := by
  intro raw s
  exact ⟨decode_encode (.dec12 raw), sext (decode12 raw), rfl, sext_decode12_toInt raw⟩

/-- Settles O12: in the legal domain the operand has a code, and outside it has none. -/
theorem enc12EncodesOrDomainError : Obligations.Enc12EncodesOrDomainError := by
  intro imm16 s
  refine ⟨decode_encode (.enc12 imm16), ?inside, ?outside⟩
  case inside =>
    rintro ⟨hmin, hmax⟩
    obtain ⟨raw, hsome, hraw⟩ := encode12_of_range hmin hmax
    exact ⟨zext raw.toNat, exec_enc12_of_some hsome s, by rw [zext_toNat_of_le (by decide), hraw]⟩
  case outside =>
    intro hout
    exact exec_enc12_of_none ((encode12_eq_none_iff _).2 hout) s

/-- Settles O13: RES1 is the joined pixel, and RES0 the pixel under the sign rule. -/
theorem decpxJoinsAndDecodes : Obligations.DecpxJoinsAndDecodes := by
  intro lo hi s
  refine ⟨decode_encode (.decpx lo hi), sext (decode12 (joinPixel lo hi)), zext (joinPixel lo hi).toNat, rfl, ?_⟩
  rw [zext_toNat_of_le (by decide)]
  exact ⟨joinPixel_toNat lo hi, sext_decode12_toInt _⟩

/-- Settles O14: RES0 and RES1 are the halves of the pixel split. -/
theorem splitpSplitsAtEight : Obligations.SplitpSplitsAtEight := by
  intro raw s
  obtain ⟨hhigh, hlow⟩ := splitPixel_toNat raw
  exact ⟨decode_encode (.splitp raw), _, _, rfl, (zext_toNat_of_le (by decide) _).trans hlow,
    (zext_toNat_of_le (by decide) _).trans hhigh⟩

/-- Settles O15: RES0 and RES1 are the parts of the limit split. -/
theorem splitlSplitsAtNineAndSeven : Obligations.SplitlSplitsAtNineAndSeven := by
  intro raw s
  obtain ⟨hhigh, hlow⟩ := splitLimit_toNat raw
  exact ⟨decode_encode (.splitl raw), _, _, rfl, (zext_toNat_of_le (by decide) _).trans hlow,
    (zext_toNat_of_le (by decide) _).trans hhigh⟩

/-- Settles O16: below a high byte of 0x10 the bytes decode to a 10-bit value, and from there on they do not. -/
theorem thermCombinesOrDomainError : Obligations.ThermCombinesOrDomainError := by
  intro hi lo s
  refine ⟨decode_encode (.therm hi lo), ?inside, ?outside⟩
  case inside =>
    intro hhi
    obtain ⟨q, hsome, hq⟩ := decodeTherm_of_lt (lo := lo) hhi
    have hlt := thermCombine_lt (lo := lo) hhi
    have hres1 : (zext (thermCombine hi lo)).toNat = thermCombine hi lo := zext_toNat (by omega)
    have hres0 : (sext q).toInt = q := sext_toInt (by split at hq <;> omega)
    refine ⟨sext q, zext (thermCombine hi lo), exec_therm_of_some hsome s, hres1, ?_⟩
    rw [hres0, hres1, hq]
  case outside =>
    intro hhi
    exact exec_therm_of_none ((decodeTherm_eq_none_iff hi lo).2 hhi) s

/-! ### Round trips and lost bits -/

/-- Settles O17: a decoded value and its code are equal modulo 4096, and both ranges hold 4096 values. -/
theorem codecRoundTrip : Obligations.CodecRoundTrip := by
  refine ⟨?encodeDecode, ?decodeEncode, ?nibble⟩
  case encodeDecode =>
    intro raw
    obtain ⟨hmin, hmax⟩ := decode12_range raw
    obtain ⟨code, hsome, hcode⟩ := encode12_of_range hmin hmax
    have heq : code.toNat = raw.toNat := Int.ofNat_inj.1 (hcode.trans (decode12_emod raw))
    rw [hsome, BitVec.eq_of_toNat_eq heq]
  case decodeEncode =>
    intro v hmin hmax
    obtain ⟨raw, hsome, hraw⟩ := encode12_of_range hmin hmax
    have hmod : decode12 raw % 4096 = v % 4096 := (decode12_emod raw).trans hraw
    obtain ⟨hdmin, hdmax⟩ := decode12_range raw
    exact ⟨raw, hsome, by omega⟩
  case nibble =>
    intro lo hi hi' h
    rw [joinPixel, joinPixel, h]

/-- Settles O20: the limit split sees a code through the mask alone, and the pixel split keeps every bit. -/
theorem splitlLosesBitsEightAndSeven : Obligations.SplitlLosesBitsEightAndSeven := by
  intro a b s hmask
  constructor
  · have hsplit : splitLimit b = splitLimit a := by rw [← splitLimit_and_mask b, ← hmask, splitLimit_and_mask]
    exact ⟨_, rfl, by simp only [exec, execSplitl, hsplit]⟩
  · intro hne hexec
    obtain ⟨-, r0, r1, ha, halow, hahigh⟩ := splitpSplitsAtEight a s
    obtain ⟨-, q0, q1, hb, hblow, hbhigh⟩ := splitpSplitsAtEight b s
    cases ha.symm.trans (hexec.trans hb)
    exact hne (BitVec.eq_of_toNat_eq (by omega))

/-! ### Independence of the state -/

/-- A codec command writes the same two results in every state, or raises DomainError in every state (R92). -/
theorem exec_codec_uniform {i : Instr} (hcodec : isCodec i = true) :
    (∃ res0 res1, ∀ s, exec i s = .next (s.completeCodec res0 res1)) ∨
      ∀ s, exec i s = .next (s.raise .codec .domainError) := by
  cases i with
  | dec12 | decpx | splitp | splitl => exact .inl ⟨_, _, fun _ => rfl⟩
  | enc12 imm16 =>
    cases hcode : encode12 imm16.toInt with
    | none => exact .inr (exec_enc12_of_none hcode)
    | some raw => exact .inl ⟨_, _, exec_enc12_of_some hcode⟩
  | therm hi lo =>
    cases hcode : decodeTherm hi lo with
    | none => exact .inr (exec_therm_of_none hcode)
    | some q => exact .inl ⟨_, _, exec_therm_of_some hcode⟩
  | nop | srst | asm | remap | rmp1 => cases hcodec

/-- Settles O21: a codec command ends alike in every state. -/
theorem codecResultIndependentOfState : Obligations.CodecResultIndependentOfState := by
  intro i s₁ s₂ hcodec
  rcases exec_codec_uniform hcodec with ⟨res0, res1, hok⟩ | herr
  · exact ⟨_, _, hok s₁, hok s₂, rfl, rfl⟩
  · exact ⟨_, _, herr s₁, herr s₂, rfl, rfl⟩

end Sys2Proof.Machine

/-! PROOFS. The frame assembler (42_frame.md): the frame of 8 good lines, and the first faulty line. -/

namespace Sys2Proof.Machine

/-! ### The cells -/

/-- Cell `8*i + k` of an assembled frame is pixel k of line i, decoded (R101, R103). -/
theorem assembleFrame_cell (lines : Vector Block 8) (i k : Fin 8) :
    (assembleFrame lines).cells[8 * i.val + k.val].toInt =
      decode12 (joinPixel lines[i][2 * k.val] lines[i][2 * k.val + 1]) := by
  have hline : (8 * i.val + k.val) / 8 = i.val := by omega
  have hpixel : (8 * i.val + k.val) % 8 = k.val := by omega
  simp only [assembleFrame, matrixOf, unpackLine, Vector.getElem_ofFn, hline, hpixel]
  exact cellValue_cellOf (decode12_range _)

/-! ### The answers -/

/-- Replies of 16 bytes are good lines (R101, R103). -/
theorem LinePort.exists_goodLines {p : LinePort} {m : Nat}
    (h : ∀ i < m, ∃ l : List Byte, p.upcoming i = .bytes l ∧ l.length = 16) : ∃ b, p.GoodLines m b := by
  have hblock : ∀ i, ∃ c : Block, i < m → p.upcoming i = .bytes c.toList := by
    intro i
    by_cases hi : i < m
    · obtain ⟨l, hl, hlen⟩ := h i hi
      exact ⟨⟨l.toArray, hlen⟩, fun _ => hl⟩
    · exact ⟨Vector.replicate 16 0, fun hlt => absurd hlt hi⟩
  exact Classical.skolem.1 hblock

/-- `ASM` of 8 good lines (R103). -/
theorem exec_asm_of_goodLines {s : State} {b : Nat → Block} (hgood : s.line.GoodLines 8 b) :
    exec .asm s = .next (State.completeFrame { s with line := s.line.afterLines 8 }
      (assembleFrame (Vector.ofFn fun i : Fin 8 => b i.val))) := by
  simp only [exec, execAsm, readLines_good hgood]

/-- `ASM` whose first faulty line is line `m` (R104 to R108). -/
theorem exec_asm_of_failed {s : State} {b : Nat → Block} {m : Nat} {e : ErrCode} (hm : m < 8)
    (hgood : s.line.GoodLines m b) (he : lineResult (s.line.upcoming m) = .failed e) :
    exec .asm s = .next (State.raise { s with line := s.line.afterLines (m + 1) } .frame e) := by
  simp only [exec, execAsm, readLines_failed hm hgood he]

/-! ### The ends of `ASM` -/

/-- Settles O22: the frame assembled from the 8 blocks, whose extrema the tracker has found. -/
theorem asmFrameIsFunctionOfAnswers : Obligations.AsmFrameIsFunctionOfAnswers := by
  refine ⟨decode_encode .asm, fun b => ⟨assembleFrame (Vector.ofFn b), ?cells, assembleFrame_inv _, ?run⟩⟩
  case cells =>
    intro i k
    simpa using assembleFrame_cell (Vector.ofFn b) i k
  case run =>
    intro s hanswers
    have hgood : s.line.GoodLines 8 fun i => b (Fin.ofNat 8 i) := by
      intro i hi
      simpa [Fin.ofNat, Nat.mod_eq_of_lt hi] using hanswers ⟨i, hi⟩
    have hrun := exec_asm_of_goodLines hgood
    simp only [Fin.ofNat_val_eq_self] at hrun
    simp only [← lineRequest_eq]
    exact hrun

/-- Settles O23: a faulty answer is one that `ASM` fails on, and the lines before it are good. -/
theorem asmFailsAtFirstFaultyLine : Obligations.AsmFailsAtFirstFaultyLine := by
  intro s m e hbefore hfaulty
  obtain ⟨b, hgood⟩ := LinePort.exists_goodLines hbefore
  have hfailed : lineResult (s.line.upcoming m.val) = .failed e := (lineResult_eq_failed_iff _ e).2 hfaulty
  simp only [← lineRequest_eq]
  exact exec_asm_of_failed m.isLt hgood hfailed

end Sys2Proof.Machine

/-! PROOFS. The remapper (43_remap.md): the linear map and its bounds, the clamped output, the selected ranges, and the
ends of `REMAP` and `RMP1`. -/

namespace Sys2Proof.Machine

/-! ### The linear map -/

/-- N weighs the two target bounds by the distances of the value from the two ends of the source range (R120). -/
theorem Ranges.num_eq_weighted (g : Ranges) (v : Int) : g.num v = g.tl * (g.sh - v) + g.th * (v - g.sl) := by
  rw [Ranges.num, Ranges.den]
  ring

/-- Different ends make a divisor that is not zero (R124, R128). -/
theorem Ranges.den_ne_zero {g : Ranges} (hne : g.sl ≠ g.sh) : g.den ≠ 0 := fun h => hne (Int.sub_eq_zero.1 h).symm

/-- N a multiple of D maps to the factor, with no remainder to truncate (R121). -/
theorem Ranges.truncated_of_num_eq {g : Ranges} {v q : Int} (hne : g.sl ≠ g.sh) (h : g.num v = q * g.den) :
    g.truncated v = q := by
  rw [Ranges.truncated, h, Int.mul_tdiv_cancel _ (Ranges.den_ne_zero hne)]

/-- The low end of the source range maps to the low target bound (R120). -/
theorem Ranges.truncated_sl {g : Ranges} (hne : g.sl ≠ g.sh) : g.truncated g.sl = g.tl :=
  Ranges.truncated_of_num_eq hne (by rw [Ranges.num_eq_weighted, Ranges.den]; ring)

/-- The high end of the source range maps to the high target bound (R120). -/
theorem Ranges.truncated_sh {g : Ranges} (hne : g.sl ≠ g.sh) : g.truncated g.sh = g.th :=
  Ranges.truncated_of_num_eq hne (by rw [Ranges.num_eq_weighted, Ranges.den]; ring)

/-- Equal target bounds give the constant map (R123). -/
theorem Ranges.truncated_of_tl_eq_th {g : Ranges} (hne : g.sl ≠ g.sh) (htgt : g.tl = g.th) (v : Int) :
    g.truncated v = g.tl :=
  Ranges.truncated_of_num_eq hne (by rw [Ranges.num, htgt]; ring)

/-- A value inside the source range maps between the target bounds (R125, corner cases). -/
theorem Ranges.truncated_mem_target {g : Ranges} {v : Int} (htl : 0 ≤ g.tl) (hth : 0 ≤ g.th) (hlt : g.sl < g.sh)
    (hlo : g.sl ≤ v) (hhi : v ≤ g.sh) : min g.tl g.th ≤ g.truncated v ∧ g.truncated v ≤ max g.tl g.th := by
  have hden : 0 < g.den := Int.sub_pos_of_lt hlt
  have hbelow : 0 ≤ g.sh - v := Int.sub_nonneg_of_le hhi
  have habove : 0 ≤ v - g.sl := Int.sub_nonneg_of_le hlo
  have hweights (b : Int) : b * g.den = b * (g.sh - v) + b * (v - g.sl) := by rw [Ranges.den]; ring
  have hnum : 0 ≤ g.num v := by rw [Ranges.num_eq_weighted]; positivity
  rw [Ranges.truncated, Int.tdiv_eq_ediv_of_nonneg hnum]
  constructor
  · rw [Int.le_ediv_iff_mul_le hden, hweights, Ranges.num_eq_weighted]
    gcongr
    · exact min_le_left _ _
    · exact min_le_right _ _
  · refine Int.ediv_le_of_le_mul hden ?_
    rw [hweights, Ranges.num_eq_weighted]
    gcongr
    · exact le_max_left _ _
    · exact le_max_right _ _

/-- The quotient truncated toward zero, by its remainder (R7): it is smaller than the divisor, and is 0 or has the sign
of the dividend. -/
theorem tdiv_remainder (num : Int) {den : Int} (hden : den ≠ 0) :
    num.tdiv den * den = num - num.tmod den ∧ |num.tmod den| < |den| ∧
      (num.tmod den = 0 ∨ (0 < num.tmod den ∧ 0 < num) ∨ (num.tmod den < 0 ∧ num < 0)) := by
  refine ⟨?quotient, ?size, ?sign⟩
  case quotient =>
    have hsplit := Int.tdiv_mul_add_tmod num den
    omega
  case size =>
    have hlt : num.natAbs % den.natAbs < den.natAbs := Nat.mod_lt _ (Int.natAbs_pos.2 hden)
    rw [Int.abs_eq_natAbs, Int.abs_eq_natAbs, Int.natAbs_tmod]
    exact_mod_cast hlt
  case sign =>
    rcases lt_trichotomy num 0 with hneg | rfl | hpos
    · have hrem : num.tmod den ≤ 0 := by
        rw [← neg_nonneg, ← Int.neg_tmod]
        exact Int.tmod_nonneg den (neg_nonneg.2 hneg.le)
      omega
    · exact .inl (Int.zero_tmod den)
    · have hrem : 0 ≤ num.tmod den := Int.tmod_nonneg den hpos.le
      omega

/-! ### The operand widths -/

/-- "`v`, `sl`, `sh` fit 16 bits signed" (R120). -/
def FitsSigned16 (v : Int) : Prop := -32768 ≤ v ∧ v ≤ 32767

/-- The operand widths of the linear map (R120). -/
structure Ranges.Widths (g : Ranges) : Prop where
  sl : FitsSigned16 g.sl
  sh : FitsSigned16 g.sh
  tl : 0 ≤ g.tl ∧ g.tl ≤ 255
  th : 0 ≤ g.th ∧ g.th ≤ 255

/-- A register of at most 16 bits holds a signed value that fits 16 bits. -/
theorem fitsSigned16_toInt {w : Nat} (hw : w ≤ 16) (x : BitVec w) : FitsSigned16 x.toInt := by
  have hlo := BitVec.le_toInt x
  have hhi := BitVec.toInt_lt (x := x)
  have hpow : (2 : Int) ^ (w - 1) ≤ 2 ^ 15 := pow_le_pow_right₀ (by decide) (by omega)
  constructor <;> omega

/-- A target register holds a value in 0..255 (R16). -/
theorem tgtValue_range (b : Byte) : 0 ≤ tgtValue b ∧ tgtValue b ≤ 255 := by
  have hlt := b.isLt
  unfold tgtValue
  omega

/-- The difference of two 16-bit values (R120). -/
theorem abs_sub_le_of_fitsSigned16 {a b : Int} (ha : FitsSigned16 a) (hb : FitsSigned16 b) : |a - b| ≤ 65535 := by
  obtain ⟨ha1, ha2⟩ := ha
  obtain ⟨hb1, hb2⟩ := hb
  rw [abs_le]
  omega

/-- "`|D| <= 65535`" (R120). -/
theorem Ranges.Widths.abs_den_le {g : Ranges} (h : g.Widths) : |g.den| ≤ 65535 :=
  abs_sub_le_of_fitsSigned16 h.sh h.sl

/-- |N| by |D|: the common ground of R120's bounds on N and on the quotient. -/
theorem Ranges.Widths.abs_num_le_den {g : Ranges} (h : g.Widths) {v : Int} (hv : FitsSigned16 v) :
    |g.num v| ≤ 255 * |g.den| + 65535 * 255 := by
  have htl : |g.tl| ≤ 255 := by rw [abs_of_nonneg h.tl.1]; exact h.tl.2
  have hth : |g.th - g.tl| ≤ 255 := by
    obtain ⟨htl0, htl1⟩ := h.tl
    obtain ⟨hth0, hth1⟩ := h.th
    rw [abs_le]
    omega
  calc |g.num v| ≤ |g.tl * g.den| + |(v - g.sl) * (g.th - g.tl)| := abs_add_le _ _
    _ = |g.tl| * |g.den| + |v - g.sl| * |g.th - g.tl| := by rw [abs_mul, abs_mul]
    _ ≤ 255 * |g.den| + 65535 * 255 := by
      gcongr
      exact abs_sub_le_of_fitsSigned16 hv h.sl

/-- "`|N| <= 2 * 65535 * 255`" (R120). -/
theorem Ranges.Widths.abs_num_le {g : Ranges} (h : g.Widths) {v : Int} (hv : FitsSigned16 v) :
    |g.num v| ≤ 2 * 65535 * 255 := by
  have hnum := h.abs_num_le_den hv
  have hden := h.abs_den_le
  omega

/-- "`|N / D| <= 255 + 65535 * 255`" (R120), as D is at least 1 in absolute value. -/
theorem Ranges.Widths.abs_truncated_le {g : Ranges} (h : g.Widths) (hne : g.sl ≠ g.sh) {v : Int}
    (hv : FitsSigned16 v) : |g.truncated v| ≤ 255 + 65535 * 255 := by
  have hden : 0 < |g.den| := abs_pos.2 (Ranges.den_ne_zero hne)
  have hquot : |g.truncated v| = |g.num v| / |g.den| := by
    simp only [Ranges.truncated, Int.abs_eq_natAbs, Int.natAbs_tdiv]
    rfl
  have hnum := h.abs_num_le_den hv
  rw [hquot]
  exact Int.ediv_le_of_le_mul hden (by omega)

/-! ### The clamped output -/

/-- The output is the truncated value saturated to 0..255 (R122). -/
theorem Ranges.intensity_toNat (g : Ranges) (v : Int) :
    ((g.intensity v).toNat : Int) = max 0 (min 255 (g.truncated v)) := by
  unfold Ranges.intensity
  split
  · change (0 : Int) = _; omega
  · split
    · change (255 : Int) = _; omega
    · rw [BitVec.toNat_ofInt]; omega

/-- A truncated value that is a byte is the output (R122). -/
theorem Ranges.intensity_of_truncated {g : Ranges} {v : Int} {b : Byte} (h : g.truncated v = b.toNat) :
    g.intensity v = b := by
  have hint := g.intensity_toNat v
  have hlt := b.isLt
  exact BitVec.eq_of_toNat_eq (by omega)

/-- The clamp flag (R122). -/
@[simp] theorem Ranges.clamps_eq_true_iff (g : Ranges) (v : Int) :
    g.clamps v = true ↔ g.truncated v < 0 ∨ 255 < g.truncated v :=
  decide_eq_true_iff

/-- No clamp for a truncated value in 0..255 (R122). -/
@[simp] theorem Ranges.clamps_eq_false_iff (g : Ranges) (v : Int) :
    g.clamps v = false ↔ 0 ≤ g.truncated v ∧ g.truncated v ≤ 255 := by
  rw [← Bool.not_eq_true, Ranges.clamps_eq_true_iff]
  omega

/-- Cell n of GRAY is the output for cell n of FRAME (R127). -/
@[simp] theorem getElem_grayOf (g : Ranges) (f : Frame) (n : Nat) (hn : n < 64) :
    (grayOf g f)[n] = g.intensity (cellValue f.cells[n]) := by
  simp [grayOf]

/-- Cell n of GRAY as a number (R122, R127). -/
theorem grayOf_toNat (g : Ranges) (f : Frame) (n : Fin 64) :
    ((grayOf g f)[n].toNat : Int) = max 0 (min 255 (g.truncated (cellValue f.cells[n]))) := by
  rw [Fin.getElem_fin, getElem_grayOf]
  exact g.intensity_toNat _

/-- SAT of `REMAP`: whether any cell clamps (R125). -/
theorem anyClamps_eq_true_iff (g : Ranges) (f : Frame) :
    anyClamps g f = true ↔ ∃ n : Fin 64, g.clamps (cellValue f.cells[n]) = true := by
  simp [anyClamps]

/-- SAT of `REMAP` is 0 when no cell clamps (R125). -/
theorem anyClamps_eq_false {g : Ranges} {f : Frame}
    (h : ∀ n : Fin 64, 0 ≤ g.truncated (cellValue f.cells[n]) ∧ g.truncated (cellValue f.cells[n]) ≤ 255) :
    anyClamps g f = false := by
  rw [← Bool.not_eq_true, anyClamps_eq_true_iff]
  rintro ⟨n, hn⟩
  rw [(g.clamps_eq_false_iff _).2 (h n)] at hn
  cases hn

/-! ### The selected ranges -/

/-- A source range with the target range of the registers (R123). -/
def Regs.withSource (r : Regs) (sl sh : Int) : Ranges := ⟨sl, sh, tgtValue r.tgtLo, tgtValue r.tgtHi⟩

/-- Different bounds are different ends of the source range (R124). -/
theorem Regs.withSource_ends_ne (r : Regs) {w : Nat} {lo hi : BitVec w} (h : lo ≠ hi) :
    (r.withSource lo.toInt hi.toInt).sl ≠ (r.withSource lo.toInt hi.toInt).sh :=
  fun heq => h (BitVec.eq_of_toInt_eq heq)

/-- The caller-supplied range (R123). -/
theorem Regs.ranges_of_srcsel {r : Regs} (hsel : r.srcsel = true) :
    r.ranges = some (r.withSource r.srcLo.toInt r.srcHi.toInt) := by
  simp only [Regs.ranges, hsel, Regs.withSource, srcValue]

/-- The frame's own range (R123). -/
theorem Regs.ranges_of_frame {r : Regs} {f : Frame} (hsel : r.srcsel = false) (hf : r.frame = some f) :
    r.ranges = some (r.withSource f.minv.toInt f.maxv.toInt) := by
  simp only [Regs.ranges, hsel, hf, Regs.withSource, cellValue]

/-- With a frame there is a range, its own or the caller's (R123). -/
theorem Regs.ranges_of_ite {r : Regs} {f : Frame} {sl sh : Int} (hf : r.frame = some f)
    (h : (sl, sh) = if r.srcsel then (r.srcLo.toInt, r.srcHi.toInt) else (f.minv.toInt, f.maxv.toInt)) :
    r.ranges = some (r.withSource sl sh) := by
  split at h
  case isTrue hsel =>
    cases h
    exact Regs.ranges_of_srcsel hsel
  case isFalse hsel =>
    cases h
    exact Regs.ranges_of_frame (Bool.eq_false_of_not_eq_true hsel) hf

/-- The selected ranges have the widths of R120. -/
theorem Regs.ranges_widths {r : Regs} {g : Ranges} (h : r.ranges = some g) : g.Widths := by
  unfold Regs.ranges at h
  split at h <;> cases h <;>
    exact ⟨fitsSigned16_toInt (by decide) _, fitsSigned16_toInt (by decide) _, tgtValue_range _, tgtValue_range _⟩

/-! ### The ends of the two commands -/

/-- `REMAP` without a frame (R125). -/
theorem exec_remap_of_noFrame {s : State} (hf : s.regs.frame = none) :
    exec .remap s = .next (s.raise .gray .noFrame) := by
  simp only [exec, execRemap, hf]

/-- `REMAP` with an empty source range (R124, R125). -/
theorem exec_remap_of_degenerate {s : State} {f : Frame} {g : Ranges} (hf : s.regs.frame = some f)
    (hg : s.regs.ranges = some g) (heq : g.sl = g.sh) :
    exec .remap s = .next (s.raise .gray .degenerateRangeError) := by
  simp only [exec, execRemap, hf, hg, if_pos heq]

/-- `REMAP` with a frame and a source range of different ends (R125). -/
theorem exec_remap_of_ranges {s : State} {f : Frame} {g : Ranges} (hf : s.regs.frame = some f)
    (hg : s.regs.ranges = some g) (hne : g.sl ≠ g.sh) :
    exec .remap s = .next (s.completeGray (grayOf g f) (anyClamps g f)) := by
  simp only [exec, execRemap, hf, hg, if_neg hne]

/-- `RMP1` without a range to select (R126). -/
theorem exec_rmp1_of_noFrame {s : State} (hg : s.regs.ranges = none) (imm16 : BitVec 16) :
    exec (.rmp1 imm16) s = .next (s.raise .rmp1 .noFrame) := by
  simp only [exec, execRmp1, hg]

/-- `RMP1` with an empty source range (R124, R126). -/
theorem exec_rmp1_of_degenerate {s : State} {g : Ranges} (hg : s.regs.ranges = some g) (heq : g.sl = g.sh)
    (imm16 : BitVec 16) : exec (.rmp1 imm16) s = .next (s.raise .rmp1 .degenerateRangeError) := by
  simp only [exec, execRmp1, hg, if_pos heq]

/-- `RMP1` with a source range of different ends (R126). -/
theorem exec_rmp1_of_ranges {s : State} {g : Ranges} (hg : s.regs.ranges = some g) (hne : g.sl ≠ g.sh)
    (imm16 : BitVec 16) :
    exec (.rmp1 imm16) s = .next (s.completeRmp1 ((g.intensity imm16.toInt).setWidth 32)
      (sext (g.truncated imm16.toInt)) (g.clamps imm16.toInt)) := by
  simp only [exec, execRmp1, hg, if_neg hne, zext_toNat_eq_setWidth, immValue]

/-- RES1 of `RMP1` is the truncated value (R126): the bounds of R120 fit a word. -/
theorem sext_truncated_toInt {g : Ranges} (h : g.Widths) (hne : g.sl ≠ g.sh) {v : Int} (hv : FitsSigned16 v) :
    (sext (g.truncated v)).toInt = g.truncated v := by
  obtain ⟨hlo, hhi⟩ := abs_le.1 (h.abs_truncated_le hne hv)
  exact sext_toInt (by omega)

/-- Settles O27: the selected range decides the end of `REMAP`, and each cell is the saturated quotient. -/
theorem remapOutcomes : Obligations.RemapOutcomes := by
  refine ⟨decode_encode .remap, fun s => ⟨exec_remap_of_noFrame, fun f sl sh hf hsrc => ?_⟩⟩
  have hg := Regs.ranges_of_ite hf hsrc
  refine ⟨exec_remap_of_degenerate hf hg, fun hne => ?_⟩
  refine ⟨_, _, exec_remap_of_ranges hf hg hne, fun n => ?cell, ?sat⟩
  case cell => exact grayOf_toNat _ f n
  case sat =>
    simp only [anyClamps_eq_true_iff, Ranges.clamps_eq_true_iff]
    rfl

/-- Settles O28: the selected range decides the end of `RMP1`, and RES1 holds the quotient unchanged. -/
theorem rmp1Outcomes : Obligations.Rmp1Outcomes := by
  intro imm16 s
  refine ⟨decode_encode (.rmp1 imm16), ?noFrame, fun sl sh hsrc => ?range⟩
  case noFrame =>
    intro hsel hf
    exact exec_rmp1_of_noFrame ((Regs.ranges_eq_none_iff _).2 ⟨hsel, hf⟩) imm16
  case range =>
    have hg : s.regs.ranges = some (s.regs.withSource sl sh) := by
      rcases hsrc with ⟨hsel, rfl, rfl⟩ | ⟨hsel, f, hf, rfl, rfl⟩
      · exact Regs.ranges_of_srcsel hsel
      · exact Regs.ranges_of_frame hsel hf
    refine ⟨fun heq => exec_rmp1_of_degenerate hg heq imm16, fun hne => ?_⟩
    have hres1 := sext_truncated_toInt (Regs.ranges_widths hg) hne (fitsSigned16_toInt (by decide) imm16)
    refine ⟨_, _, _, exec_rmp1_of_ranges hg hne imm16, hres1, ?_, ?_⟩
    · rw [hres1, BitVec.toNat_setWidth_of_le (by decide)]
      exact Ranges.intensity_toNat _ _
    · rw [hres1]
      exact Ranges.clamps_eq_true_iff _ _

/-- Settles O29: RES1 is the quotient by O28, its remainder is `tmod`, and the bounds are those of the widths. -/
theorem rmp1TruncatesTowardZeroWithinBounds : Obligations.Rmp1TruncatesTowardZeroWithinBounds := by
  intro imm16 s hsel hne
  have hne' := s.regs.withSource_ends_ne hne
  have hw := Regs.ranges_widths (Regs.ranges_of_srcsel hsel)
  have hv : FitsSigned16 imm16.toInt := fitsSigned16_toInt (by decide) imm16
  obtain ⟨-, -, hrange⟩ := rmp1Outcomes imm16 s
  obtain ⟨r0, r1, sat, hrun, hres1, -, -⟩ := (hrange _ _ (.inl ⟨hsel, rfl, rfl⟩)).2 hne'
  obtain ⟨hquot, hsize, hsign⟩ := tdiv_remainder
    ((s.regs.withSource s.regs.srcLo.toInt s.regs.srcHi.toInt).num imm16.toInt) (Ranges.den_ne_zero hne')
  refine ⟨_, r0, r1, _, _, _, hrun, rfl, rfl, rfl, ?_, hsize, hsign, hw.abs_den_le, hw.abs_num_le hv, ?_⟩
  · rw [hres1]
    exact hquot
  · rw [hres1]
    exact hw.abs_truncated_le hne' hv

/-- Settles O30: the frame invariant puts every cell into the source range, and its extrema at the ends. -/
theorem remapOwnRangeStaysInTarget : Obligations.RemapOwnRangeStaysInTarget := by
  intro s f hf hinv hsel hne
  have hg := Regs.ranges_of_frame hsel hf
  have hne' := s.regs.withSource_ends_ne hne
  have hlt : f.minv.toInt < f.maxv.toInt := lt_of_le_of_ne ((hinv.min_le 0).trans (hinv.le_max 0)) hne'
  have hw := Regs.ranges_widths hg
  have hmem (n : Fin 64) :
      min (s.regs.tgtLo.toNat : Int) s.regs.tgtHi.toNat ≤
        (s.regs.withSource f.minv.toInt f.maxv.toInt).truncated (cellValue f.cells[n]) ∧
      (s.regs.withSource f.minv.toInt f.maxv.toInt).truncated (cellValue f.cells[n]) ≤
        max (s.regs.tgtLo.toNat : Int) s.regs.tgtHi.toNat :=
    Ranges.truncated_mem_target hw.tl.1 hw.th.1 hlt (hinv.min_le n) (hinv.le_max n)
  have hlo := s.regs.tgtLo.isLt
  have hhi := s.regs.tgtHi.isLt
  refine ⟨_, _, exec_remap_of_ranges hf hg hne', rfl, anyClamps_eq_false fun n => ?sat, fun n => ?cell, ?ends⟩
  case sat =>
    obtain ⟨hmin, hmax⟩ := hmem n
    omega
  case cell =>
    obtain ⟨hmin, hmax⟩ := hmem n
    have hcell := grayOf_toNat (s.regs.withSource f.minv.toInt f.maxv.toInt) f n
    omega
  case ends =>
    intro hlo hhi
    rw [getElem_grayOf, getElem_grayOf, hinv.at_minp, hinv.at_maxp]
    constructor
    · exact Ranges.intensity_of_truncated ((Ranges.truncated_sl hne').trans (congrArg tgtValue hlo))
    · exact Ranges.intensity_of_truncated ((Ranges.truncated_sh hne').trans (congrArg tgtValue hhi))

/-- Settles O31: `REMAP` leaves the ranges as they are, and the operand holds the value of the cell. -/
theorem remapLaneEqualsRmp1 : Obligations.RemapLaneEqualsRmp1 := by
  intro s f n hf hsrc
  obtain ⟨g, hg, hne⟩ : ∃ g, s.regs.ranges = some g ∧ g.sl ≠ g.sh := by
    split at hsrc
    case isTrue hsel => exact ⟨_, Regs.ranges_of_srcsel hsel, Regs.withSource_ends_ne _ hsrc⟩
    case isFalse hsel =>
      exact ⟨_, Regs.ranges_of_frame (Bool.eq_false_of_not_eq_true hsel) hf, Regs.withSource_ends_ne _ hsrc⟩
  have hg' : (s.completeGray (grayOf g f) (anyClamps g f)).regs.ranges = some g := hg
  have hoperand : (f.cells[n].signExtend 16).toInt = cellValue f.cells[n] := BitVec.toInt_signExtend_of_le (by decide)
  have hrun := exec_rmp1_of_ranges hg' hne (f.cells[n].signExtend 16)
  rw [hoperand] at hrun
  refine ⟨_, _, _, sext (g.truncated (cellValue f.cells[n])), exec_remap_of_ranges hf hg hne, rfl, hrun, ?_⟩
  have hlane : (grayOf g f)[n] = g.intensity (cellValue f.cells[n]) := getElem_grayOf g f n n.isLt
  rw [hlane]
  rfl

/-- Settles O32: the constant map gives TGT_LO, a byte, so nothing is cut off and nothing clamps. -/
theorem equalTargetsGiveConstantMap : Obligations.EqualTargetsGiveConstantMap := by
  intro s imm16 hsel hsrc htgt
  have hg := Regs.ranges_of_srcsel hsel
  have hne := s.regs.withSource_ends_ne hsrc
  have hconst := Ranges.truncated_of_tl_eq_th hne (congrArg tgtValue htgt)
  have hbyte (v : Int) := Ranges.intensity_of_truncated (b := s.regs.tgtLo) (hconst v)
  have hrange := tgtValue_range s.regs.tgtLo
  constructor
  · refine ⟨_, exec_rmp1_of_ranges hg hne imm16, (Ranges.clamps_eq_false_iff _ _).2 ?_, ?_⟩
    · rw [hconst]
      exact hrange
    · have hres1 : sext (tgtValue s.regs.tgtLo) = s.regs.tgtLo.setWidth 32 := zext_toNat_eq_setWidth s.regs.tgtLo
      rw [hbyte, hconst, ← hres1]
      rfl
  · intro hsome
    obtain ⟨f, hf⟩ := Option.ne_none_iff_exists'.1 hsome
    refine ⟨_, _, exec_remap_of_ranges hf hg hne, rfl, anyClamps_eq_false fun n => ?_, fun n => ?_⟩
    · rw [hconst]
      exact hrange
    · rw [Fin.getElem_fin, getElem_grayOf, hbyte]

end Sys2Proof.Machine

/-! PROOFS. The system commands and the host's register writes (44_system.md): `NOP`, `SRST`, and what a write to each
address but CMD does. -/

namespace Sys2Proof.Machine

/-! ### The system commands -/

/-- `NOP` always completes, and has no destination (R135). -/
theorem exec_nop (s : State) : exec .nop s = .next s.completeNone := rfl

/-- `SRST` always completes (R136). -/
theorem exec_srst (s : State) : exec .srst s = .next s.resetRegs := rfl

/-- The mask of bits 31:4 clears the low field of a word and keeps the rest. -/
theorem append_and_highMask (high : BitVec 28) (low : BitVec 4) :
    (high ++ low : Word) &&& 0xFFFFFFF0 = high ++ 0#4 := by
  have hmask : (0xFFFFFFF0 : Word) = BitVec.allOnes 28 ++ 0#4 := rfl
  rw [hmask, BitVec.and_append, BitVec.and_allOnes, BitVec.and_zero]

/-- STATUS with ERR at OK is STATUS with bits 3:0 cleared: ERR is its low field, and OK has code 0 (R12, R150). -/
theorem Regs.statusWord_err_ok (r : Regs) : { r with err := .ok }.statusWord = r.statusWord &&& 0xFFFFFFF0 :=
  (append_and_highMask _ r.err.code).symm

/-- Settles O8: `NOP` only sets ERR to OK, which clears the low field of STATUS. -/
theorem nopChangesNothingButErr : Obligations.NopChangesNothingButErr :=
  ⟨decode_encode .nop, fun s => ⟨s.completeNone, exec_nop s, rfl, s.regs.statusWord_err_ok⟩⟩

/-- Settles O9: `SRST` writes the reset values of R25 and leaves both ports. -/
theorem srstGivesResetState : Obligations.SrstGivesResetState := by
  refine ⟨decode_encode .srst, fun s => ⟨s.resetRegs, exec_srst s, s.resetRegs_host, s.resetRegs_line, ?_⟩⟩
  rw [s.resetRegs_regs]
  exact ⟨rfl, rfl, rfl, rfl, rfl, rfl, rfl, rfl, rfl, rfl⟩

/-! ### The host's register writes -/

/-- The addresses of the read-only locations (R41): every mapped address but CMD and the control registers. -/
theorem exists_readOnly_addr {a : Addr}
    (ha : a = 0x01 ∨ a = 0x03 ∨ a = 0x04 ∨ (0x09 ≤ a.toNat ∧ a.toNat ≤ 0x0C) ∨ (0x40 ≤ a.toNat ∧ a.toNat ≤ 0xBF)) :
    ∃ l : Loc, l.access = .readOnly ∧ a = l.addr := by
  cases hloc : locate a with
  | none =>
    have hunmapped := (locate_eq_none_iff a).1 hloc
    rcases ha with rfl | rfl | rfl | ha | ha
    · exact absurd hunmapped (by decide)
    · exact absurd hunmapped (by decide)
    · exact absurd hunmapped (by decide)
    · omega
    · omega
  | some l =>
    obtain rfl := locate_eq_some_iff.1 hloc
    refine ⟨l, ?_, rfl⟩
    cases l with
    | cmd | ctrl | srcLo | srcHi | tgtLo | tgtHi => exact absurd ha (by decide)
    | _ => rfl

/-- A step that takes a write to a read-only location denies it (R42, R138). -/
theorem step_deniedWrite {s : State} {l : Loc} {d : Word} {rest : List Input} (hl : l.access = .readOnly)
    (hw : s.line.waiting = none) (hp : s.host.pending = .write l.addr d :: rest) :
    step s = .next ((s.withPending rest).respond (.busError .accessDenied)) := by
  simp only [step_input hw hp, serve, hostWrite, locate_addr]
  cases l <;> cases hl <;> rfl

/-- A step that takes a write to an unmapped address answers so (R42). -/
theorem step_unmappedWrite {s : State} {a : Addr} {d : Word} {rest : List Input} (ha : locate a = none)
    (hw : s.line.waiting = none) (hp : s.host.pending = .write a d :: rest) :
    step s = .next ((s.withPending rest).respond (.busError .unmapped)) := by
  simp only [step_input hw hp, serve, hostWrite, ha]

/-- Settles O43: each address but CMD is that of a control register or of a read-only location, or is unmapped. -/
theorem hostWritesStoreOrAreDenied : Obligations.HostWritesStoreOrAreDenied := by
  intro s a d rest hw hp
  refine ⟨?ctrl, ?srcLo, ?srcHi, ?tgtLo, ?tgtHi, fun ha => ?denied, fun ha => ?unmapped⟩
  case ctrl => rintro rfl; exact step_controlWrite (l := .ctrl) rfl hw hp
  case srcLo => rintro rfl; exact step_controlWrite (l := .srcLo) rfl hw hp
  case srcHi => rintro rfl; exact step_controlWrite (l := .srcHi) rfl hw hp
  case tgtLo => rintro rfl; exact step_controlWrite (l := .tgtLo) rfl hw hp
  case tgtHi => rintro rfl; exact step_controlWrite (l := .tgtHi) rfl hw hp
  case denied =>
    obtain ⟨l, hl, rfl⟩ := exists_readOnly_addr ha
    exact step_deniedWrite hl hw hp
  case unmapped => exact step_unmappedWrite ((locate_eq_none_iff a).2 ha) hw hp

end Sys2Proof.Machine

/-! PROOFS. The outcomes (60_exceptions.md): what each command can end with, what an outcome leaves in the destinations,
and the responses that are no outcome, the bus errors. -/

namespace Sys2Proof.Machine

/-! ### Destinations and their valid flags -/

/-- The destinations of a command and their valid flag (R157); `NOP` has none, and `SRST` resets everything (R136). -/
def destOf : Instr → Option Dest
  | .dec12 _ | .enc12 _ | .decpx _ _ | .splitp _ | .splitl _ | .therm _ _ => some .codec
  | .rmp1 _ => some .rmp1
  | .asm => some .frame
  | .remap => some .gray
  | .nop | .srst => none

/-- "Valid flag of the destinations" (R157): RV, FV or GV (R12). -/
def Regs.validFlag (r : Regs) : Dest → Bool
  | .codec | .rmp1 => r.rv
  | .frame => r.fv
  | .gray => r.gv

/-- The commands that write the results are those whose valid flag is RV (R14, R157). -/
theorem destOf_of_writesResults {i : Instr} (h : writesResults i = true) :
    destOf i = some .codec ∨ destOf i = some .rmp1 := by
  cases i with
  | nop | srst | asm | remap => cases h
  | rmp1 => exact .inr rfl
  | _ => exact .inl rfl

/-- An error outcome clears the valid flag of the destinations (R157). -/
@[simp] theorem Regs.validFlag_raise (r : Regs) (d : Dest) (e : ErrCode) : (r.raise d e).validFlag d = false := by
  cases d <;> rfl

/-- An error outcome of a remap command clears SAT (R157). -/
theorem Regs.sat_raise {d : Dest} (hd : d = .rmp1 ∨ d = .gray) (r : Regs) (e : ErrCode) :
    (r.raise d e).sat = false := by
  rcases hd with rfl | rfl <;> rfl

/-- OK is an outcome of every command (R150). -/
theorem canEndWith_ok (i : Instr) : canEndWith i .ok := by
  cases i with
  | enc12 | therm | asm | remap | rmp1 => exact Or.inl rfl
  | nop | srst | dec12 | decpx | splitp | splitl => rfl

/-! ### The two ways a command ends -/

/-- Command `i` has ended OK in `t` (R157): ERR is OK, and the destinations hold a value. -/
def EndsOk (i : Instr) (t : State) : Prop :=
  t.regs.err = .ok ∧ ∀ d, destOf i = some d → t.regs.validFlag d = true

/-- Command `i` has ended from `s` in `t` with an error outcome that R150 lists for it, as R157 says. -/
def EndsInError (i : Instr) (s t : State) : Prop :=
  ∃ d e, destOf i = some d ∧ e ≠ .ok ∧ canEndWith i e ∧ t.regs = s.regs.raise d e

/-- What shows that a command with destinations has ended OK. -/
theorem EndsOk.of_dest {i : Instr} {t : State} {d : Dest} (hd : destOf i = some d) (herr : t.regs.err = .ok)
    (hvalid : t.regs.validFlag d = true) : EndsOk i t := by
  refine ⟨herr, fun d' hd' => ?_⟩
  obtain rfl := Option.some.inj (hd.symm.trans hd')
  exact hvalid

/-- `raise` with an outcome listed for the command ends it in error. -/
theorem EndsInError.raise {i : Instr} {s : State} {d : Dest} {e : ErrCode} (hd : destOf i = some d)
    (hne : e ≠ .ok) (hcan : canEndWith i e) : EndsInError i s (s.raise d e) := ⟨d, e, hd, hne, hcan, rfl⟩

/-- A faulty reply fails with one of the error outcomes of `ASM` (R104 to R106, R150). -/
theorem asm_outcome_of_lineResult_failed {r : LineReply} {e : ErrCode} (h : lineResult r = .failed e) :
    e ≠ .ok ∧ canEndWith .asm e := by
  rcases (lineResult_eq_failed_iff r e).1 h with ⟨-, rfl⟩ | ⟨_, -, ⟨-, rfl⟩ | ⟨-, rfl⟩⟩
  · exact ⟨nofun, Or.inr (Or.inr (Or.inr rfl))⟩
  · exact ⟨nofun, Or.inr (Or.inl rfl)⟩
  · exact ⟨nofun, Or.inr (Or.inr (Or.inl rfl))⟩

/-- `ASM` ends OK after 8 good lines, and in an error outcome at the first faulty one (R103 to R107). -/
theorem exec_asm_ends {s t : State} (h : exec .asm s = .next t) (hw : t.line.waiting = none) :
    EndsOk .asm t ∨ EndsInError .asm s t := by
  obtain ⟨b, hgood | ⟨m, hm, hgood, hsilent | ⟨e, he⟩⟩⟩ := readLines_cases 8 s.line
  · cases (exec_asm_of_goodLines hgood).symm.trans h
    exact .inl (.of_dest rfl rfl rfl)
  · rw [exec, execAsm, readLines_unanswered hm hgood hsilent] at h
    cases h; cases hw
  · cases (exec_asm_of_failed hm hgood he).symm.trans h
    obtain ⟨hne, hcan⟩ := asm_outcome_of_lineResult_failed he
    exact .inr ⟨_, e, rfl, hne, hcan, rfl⟩

/-- A command that ends does so OK or in one of its error outcomes (R150, R157). -/
theorem exec_ends {i : Instr} {s t : State} (h : exec i s = .next t) (hw : t.line.waiting = none) :
    EndsOk i t ∨ EndsInError i s t := by
  cases i with
  | asm => exact exec_asm_ends h hw
  | enc12 imm16 =>
    rcases execEnc12_cases imm16 s with ⟨_, hx⟩ | ⟨_, _, hx⟩ <;> cases hx.symm.trans h
    · exact .inr (.raise rfl nofun (Or.inr rfl))
    · exact .inl (.of_dest rfl rfl rfl)
  | therm hi lo =>
    rcases execTherm_cases hi lo s with ⟨_, hx⟩ | ⟨_, _, hx⟩ <;> cases hx.symm.trans h
    · exact .inr (.raise rfl nofun (Or.inr rfl))
    · exact .inl (.of_dest rfl rfl rfl)
  | remap =>
    rcases execRemap_cases s with ⟨_, hx⟩ | ⟨_, _, _, _, ⟨_, hx⟩ | ⟨_, hx⟩⟩ <;> cases hx.symm.trans h
    · exact .inr (.raise rfl nofun (Or.inr (Or.inr rfl)))
    · exact .inr (.raise rfl nofun (Or.inr (Or.inl rfl)))
    · exact .inl (.of_dest rfl rfl rfl)
  | rmp1 imm16 =>
    rcases execRmp1_cases imm16 s with ⟨_, hx⟩ | ⟨_, _, ⟨_, hx⟩ | ⟨_, hx⟩⟩ <;> cases hx.symm.trans h
    · exact .inr (.raise rfl nofun (Or.inr (Or.inr rfl)))
    · exact .inr (.raise rfl nofun (Or.inr (Or.inl rfl)))
    · exact .inl (.of_dest rfl rfl rfl)
  | dec12 | decpx | splitp | splitl => cases h; exact .inl (.of_dest rfl rfl rfl)
  | nop | srst => cases h; exact .inl ⟨rfl, nofun⟩

/-- The valid flag of the destinations tells whether the command has ended OK (R157). -/
theorem validFlag_iff_ok {i : Instr} {s t : State} {d : Dest} (h : exec i s = .next t) (hw : t.line.waiting = none)
    (hd : destOf i = some d) : t.regs.validFlag d = true ↔ t.regs.err = .ok := by
  rcases exec_ends h hw with ⟨hok, hvalid⟩ | ⟨d', e, hd', hne, -, hregs⟩
  · exact iff_of_true (hvalid d hd) hok
  · obtain rfl := Option.some.inj (hd.symm.trans hd')
    simp [hregs, hne]

/-- A remap command that has not ended OK has cleared SAT (R157). -/
theorem sat_eq_false_of_err_ne_ok {i : Instr} {s t : State} {d : Dest} (h : exec i s = .next t)
    (hw : t.line.waiting = none) (hd : destOf i = some d) (hremap : d = .rmp1 ∨ d = .gray)
    (herr : t.regs.err ≠ .ok) : t.regs.sat = false := by
  rcases exec_ends h hw with ⟨hok, -⟩ | ⟨d', e, hd', -, -, hregs⟩
  · exact absurd hok herr
  · obtain rfl := Option.some.inj (hd.symm.trans hd')
    rw [hregs, Regs.sat_raise hremap]

/-- Settles O34: the valid flag of a command's destinations is that of its outcome. -/
theorem outcomeDecidesDestinations : Obligations.OutcomeDecidesDestinations := by
  intro i s t h hw
  refine ⟨?results, ?asm, ?remap, ?rmp1⟩
  case results =>
    intro hi
    rcases destOf_of_writesResults hi with hd | hd <;> exact validFlag_iff_ok h hw hd
  case asm => rintro rfl; exact validFlag_iff_ok h hw (d := .frame) rfl
  case remap =>
    rintro rfl
    exact ⟨validFlag_iff_ok h hw (d := .gray) rfl, sat_eq_false_of_err_ne_ok h hw rfl (.inr rfl)⟩
  case rmp1 => rintro imm16 rfl; exact sat_eq_false_of_err_ne_ok h hw rfl (.inl rfl)

/-- Settles O35: a command ends OK, or in an error outcome that R150 lists for it. -/
theorem outcomesPerCommand : Obligations.OutcomesPerCommand := by
  intro i s t h hw
  rcases exec_ends h hw with ⟨hok, -⟩ | ⟨d, e, -, -, hcan, hregs⟩
  · exact hok ▸ canEndWith_ok i
  · rw [hregs, Regs.raise_err]
    exact hcan

/-! ### Bus errors -/

/-- A stuck core responds to nothing (R176). -/
@[simp] theorem awaitReset_responses (s : State) : (awaitReset s).host.responses = s.host.responses := by
  unfold awaitReset
  split <;> rfl

/-- Only a step that answers nothing, or `Ok`, can change an element or the line-read port (R42, R139, R170). -/
theorem step_unchanged_or_ok {s t : State} (h : step s = .next t) :
    (t.regs = s.regs ∧ t.line = s.line) ∨ t.host.responses = s.host.responses ∨
      t.host.responses = s.host.responses ++ [.ok] := by
  rcases step_cases h with ⟨_, _, rfl⟩ | ⟨_, ⟨_, rfl⟩ | ⟨_, _, _, rfl⟩ | ⟨rest, _, rfl⟩ |
    ⟨_, rest, _, ⟨_, u, _, hu, rfl⟩ | ⟨_, _, rfl⟩⟩ | ⟨_, _, _, _, _, ⟨_, rfl⟩ | ⟨_, rfl⟩⟩⟩
  · exact .inr (.inl (awaitReset_responses s))
  · exact .inl ⟨rfl, rfl⟩
  · exact .inl ⟨rfl, rfl⟩
  · exact .inr (.inl rfl)
  · have hresponses : u.host.responses = s.host.responses := by
      rw [exec_host hu, State.withPending_responses]
    split
    · exact .inr (.inr (by rw [State.respond_responses, hresponses]))
    · exact .inr (.inl hresponses)
  · exact .inr (.inr rfl)
  · exact .inl ⟨rfl, rfl⟩
  · exact .inr (.inr rfl)

/-- Settles O47: a bus error is a response, and not `Ok`. -/
theorem busErrorChangesNothing : Obligations.BusErrorChangesNothing := by
  intro s t c h hbus
  rcases step_unchanged_or_ok h with hsame | hnone | hok
  · exact hsame
  · exact absurd (hnone.symm.trans hbus) (by simp)
  · exact absurd (hok.symm.trans hbus) (by simp)

end Sys2Proof.Machine

/-! PROOFS. Silence at the line-read port (70_reset_and_hazards.md): how a core comes to be stuck, what it does there,
and that it goes on everywhere else. -/

namespace Sys2Proof.Machine

/-! ### The stuck core -/

/-- A stuck core awaits the hardware reset (R176). -/
theorem step_stuck {s : State} {l : Nat} (hl : s.line.waiting = some l) : step s = .next (awaitReset s) := by
  simp only [step, takeInput, hl]

/-- With no hardware reset among its inputs a stuck core changes nothing (R176). -/
theorem awaitReset_of_no_reset {s : State} (h : Input.hardReset ∉ s.host.pending) : awaitReset s = s := if_neg h

/-- The first hardware reset among the inputs ends the wait, and the inputs around it stay (R170, R176; log entry
11). -/
theorem awaitReset_of_reset {s : State} {xs ys : List Input} (hxs : Input.hardReset ∉ xs)
    (hp : s.host.pending = xs ++ .hardReset :: ys) : awaitReset s = (s.withPending (xs ++ ys)).hardReset := by
  have herase : s.host.pending.erase .hardReset = xs ++ ys := by
    rw [hp, List.erase_append_right _ hxs, List.erase_cons_head]
  have hmem : Input.hardReset ∈ s.host.pending := by simp [hp]
  rw [awaitReset, if_pos hmem, herase]

/-! ### `ASM` and a silent transport -/

/-- `ASM` whose first line not answered with 16 bytes, line `m`, is never answered (R176). -/
theorem exec_asm_of_silent {s : State} {b : Nat → Block} {m : Nat} (hm : m < 8) (hgood : s.line.GoodLines m b)
    (hsilent : s.line.upcoming m = .silent) :
    exec .asm s = .next (State.waitForLine { s with line := s.line.afterLines (m + 1) } m) := by
  simp only [exec, execAsm, readLines_unanswered hm hgood hsilent]

/-- `ASM` ends, or it waits for a line that is never answered after good lines (R103, R107, R176). -/
theorem exec_asm_ends_or_waits (s : State) :
    ∃ t, exec .asm s = .next t ∧ (t.line.waiting = s.line.waiting ∨
      ∃ m < 8, ∃ b, s.line.GoodLines m b ∧ s.line.upcoming m = .silent ∧ t.line.waiting = some m) := by
  obtain ⟨b, hgood | ⟨m, hm, hgood, hsilent | ⟨e, he⟩⟩⟩ := readLines_cases 8 s.line
  · exact ⟨_, exec_asm_of_goodLines hgood, .inl rfl⟩
  · exact ⟨_, exec_asm_of_silent hm hgood hsilent, .inr ⟨m, hm, b, hgood, hsilent, rfl⟩⟩
  · exact ⟨_, exec_asm_of_failed hm hgood he, .inl rfl⟩

/-- A good line is an answer of 16 bytes (R101). -/
theorem LinePort.GoodLines.answered {p : LinePort} {m : Nat} {b : Nat → Block} (h : p.GoodLines m b) :
    ∀ i < m, ∃ l : List Byte, p.upcoming i = .bytes l ∧ l.length = 16 :=
  fun i hi => ⟨(b i).toList, h i hi, Vector.length_toList⟩

/-- Settles O24: the step runs `ASM`, which waits for line `m`; a stuck core awaits the reset. -/
theorem silentTransportSticksUntilHardReset : Obligations.SilentTransportSticksUntilHardReset := by
  refine ⟨?sticks, fun s l hl => ⟨fun hno => ?stays, fun xs ys hxs hp => ?ends⟩⟩
  case sticks =>
    intro s m rest hw hp hbefore hsilent
    obtain ⟨b, hgood⟩ := LinePort.exists_goodLines hbefore
    rw [step_instr hw hp (decode_encode .asm), exec_asm_of_silent (s := s.withPending rest) m.isLt hgood hsilent]
    simp only [← lineRequest_eq]
    rfl
  case stays => rw [step_stuck hl, awaitReset_of_no_reset hno]
  case ends => rw [step_stuck hl, awaitReset_of_reset hxs hp]; rfl

/-- Settles O25: `ASM` ends or waits for a silent line, and any silent line after good ones is one it waits for. -/
theorem commandCompletesIffReadsAnswered : Obligations.CommandCompletesIffReadsAnswered := by
  intro i s hw
  refine ⟨fun hi => ?others, ?asm⟩
  case others =>
    obtain ⟨t, ht, hline, _⟩ := exec_of_ne_asm i s hi
    exact ⟨t, ht, hline⟩
  case asm =>
    obtain ⟨t, ht, hends⟩ := exec_asm_ends_or_waits s
    refine ⟨t, ht, fun hended m hbefore hsilent => ?_, fun hanswered => ?_⟩
    · obtain ⟨b, hgood⟩ := LinePort.exists_goodLines hbefore
      cases ht.symm.trans (exec_asm_of_silent m.isLt hgood hsilent)
      cases hended
    · rcases hends with hended | ⟨m, hm, b, hgood, hsilent, _⟩
      · exact hended.trans hw
      · exact absurd hsilent (hanswered ⟨m, hm⟩ hgood.answered)

/-! ### No step stops -/

/-- Every command goes on (R139, R176). -/
theorem exec_goes_on (i : Instr) (s : State) : ∃ t, exec i s = .next t := by
  by_cases hi : i = .asm
  · obtain ⟨t, ht, _⟩ := exec_asm_ends_or_waits s
    exact ⟨t, hi ▸ ht⟩
  · obtain ⟨t, ht, _⟩ := exec_of_ne_asm i s hi
    exact ⟨t, ht⟩

/-- Every command word goes on, illegal ones included (R65). -/
theorem runCommand_goes_on (cw : Word) (s : State) : ∃ t, runCommand cw s = .next t := by
  rcases runCommand_cases cw s with ⟨i, _, hrun⟩ | ⟨_, _, hrun⟩
  · obtain ⟨u, hu⟩ := exec_goes_on i s
    exact ⟨_, hrun.trans ((answerOk_eq_next_iff _ _).2 ⟨u, hu, rfl⟩)⟩
  · exact ⟨_, hrun⟩

/-- Every input goes on, bus errors included (R42, R153). -/
theorem serve_goes_on (x : Input) (s : State) : ∃ t, serve x s = .next t := by
  cases x with
  | read a => exact ⟨_, rfl⟩
  | hardReset => exact ⟨_, rfl⟩
  | write a d =>
    rw [serve]
    rcases hostWrite_cases a d s with ⟨_, hwrite⟩ | ⟨_, hwrite⟩ | ⟨_, _, _, ⟨_, hwrite⟩ | ⟨_, hwrite⟩⟩
    case inr.inl =>
      rw [hwrite]
      exact runCommand_goes_on d s
    all_goals exact ⟨_, hwrite⟩

/-- Every step goes on (R159, R176). -/
theorem step_goes_on (s : State) : ∃ t, step s = .next t := by
  cases hw : s.line.waiting with
  | some l => exact ⟨_, step_stuck hw⟩
  | none =>
    cases hp : s.host.pending with
    | nil => exact ⟨s, by simp only [step, takeInput, hw, hp]⟩
    | cons x rest =>
      rw [step_input hw hp]
      exact serve_goes_on x _

/-- Settles O53: of the ways a step changes the line-read port, `ASM` alone begins a wait, and it is for a silent
line. -/
theorem stepSticksOnlyOnSilentTransport : Obligations.StepSticksOnlyOnSilentTransport := by
  intro s hw
  obtain ⟨t, ht⟩ := step_goes_on s
  rcases step_line_cases ht with hline | hline | ⟨htaken, rest, u, hu, hline⟩
  · exact .inl ⟨t, ht, hline ▸ hw⟩
  · exact .inl ⟨t, ht, by rw [hline, LinePort.endWait_waiting]⟩
  · obtain ⟨v, hv, hends⟩ := exec_asm_ends_or_waits (s.withPending rest)
    cases hv.symm.trans hu
    rcases hends with hended | ⟨m, hm, _, _, hsilent, hwaits⟩
    · exact .inl ⟨t, ht, (congrArg LinePort.waiting hline).trans (hended.trans hw)⟩
    · exact .inr ⟨t, ⟨m, hm⟩, ht, (congrArg LinePort.waiting hline).trans hwaits, htaken, hsilent⟩

end Sys2Proof.Machine

/-! PROOFS. The round trips: of the encoding (30_encoding.md), and of the codec's commands run one after the other
(95_test_vectors.md). -/

namespace Sys2Proof.Machine

/-! ### Command words -/

/-- Settles O2: the word of a command has the command's fields, and the decoder reads a command by its fields. -/
theorem decodeOfEncode : Obligations.DecodeOfEncode := decode_encode

/-- Settles O3: a word that decodes has the fields of its command, and they make up the whole word. -/
theorem encodeOfDecode : Obligations.EncodeOfDecode := fun _ _ => encode_of_decode

/-- A word decodes to the command whose word it is, and to no other (R62, R64). -/
theorem decode_eq_instr_iff_encode_eq {cw : Word} {i : Instr} : decode cw = .instr i ↔ encode i = cw :=
  ⟨encode_of_decode, fun h => h ▸ decode_encode i⟩

/-- Settles O1: each of the words is the one its command encodes to. -/
theorem sampleWordsDecode : Obligations.SampleWordsDecode := by
  refine ⟨?_, ?_, ?_, ?_, ?_, ?_, ?_, ?_⟩ <;> exact decode_eq_instr_iff_encode_eq.2 (by decide)

/-! ### The low field of a result -/

/-- The low 16 bits of a sign-extended result are the operand of that value (R7, R63). -/
theorem sext_low16_toInt {v : Int} (h : FitsSigned16 v) : ((sext v).extractLsb' 0 16).toInt = v := by
  obtain ⟨hmin, hmax⟩ := h
  rw [sext, extractLsb'_ofInt (by decide), BitVec.toInt_ofInt_eq_self (by decide) hmin (by omega)]

/-- The low byte of a zero-extended byte is the byte (R7). -/
theorem zext_low8 (b : Byte) : (zext b.toNat).extractLsb' 0 8 = b := by
  rw [zext_toNat_eq_setWidth, ← BitVec.setWidth_eq_extractLsb' (by decide),
    BitVec.setWidth_setWidth_of_le _ (by decide), BitVec.setWidth_eq]

/-- The join undoes the pixel split (R82). -/
theorem joinPixel_splitPixel (raw : Raw12) : joinPixel (splitPixel raw).2 (splitPixel raw).1 = raw := by
  obtain ⟨hhigh, hlow⟩ := splitPixel_toNat raw
  have hlt := raw.isLt
  apply BitVec.eq_of_toNat_eq
  rw [joinPixel_toNat, hhigh, hlow]
  omega

/-! ### Two codec commands in turn -/

/-- Settles O18: the low bits of RES0 are the decoded value, which encodes to the code. -/
theorem enc12UndoesDec12 : Obligations.Enc12UndoesDec12 := by
  intro raw s
  obtain ⟨hencode, _, _⟩ := codecRoundTrip
  have hfits : FitsSigned16 (decode12 raw) := by
    rw [decode12_eq_toInt]
    exact fitsSigned16_toInt (by decide) raw
  have hsome : encode12 ((sext (decode12 raw)).extractLsb' 0 16).toInt = some raw := by
    rw [sext_low16_toInt hfits, hencode]
  exact ⟨s.completeCodec (sext (decode12 raw)) 0, _, _, rfl, rfl, exec_enc12_of_some hsome _,
    by rw [State.completeCodec_regs, zext_toNat_eq_setWidth], rfl⟩

/-- Settles O19: the low bytes of RES0 and RES1 are the halves of the code, and the join undoes the split. -/
theorem decpxUndoesSplitp : Obligations.DecpxUndoesSplitp := by
  intro raw s
  refine ⟨_, _, _, _, sext (decode12 raw), rfl, rfl, rfl, ?_⟩
  rw [State.completeCodec_regs, zext_low8, zext_low8, joinPixel_splitPixel, zext_toNat_eq_setWidth raw]

/-! ### The hardware reset -/

/-- A hardware reset that is the next input is taken by the step, on a stuck core too (R170, R176; log entry 11). -/
theorem step_hardReset {s : State} {rest : List Input} (hp : s.host.pending = .hardReset :: rest) :
    step s = .next (s.withPending rest).hardReset := by
  cases hw : s.line.waiting with
  | none => rw [step_input hw hp, serve]
  | some l => rw [step_stuck hw, awaitReset_of_reset (xs := []) List.not_mem_nil hp, List.nil_append]

/-- Settles O10: the step leaves the reset values of R25, which the host reads by the register map of R41. -/
theorem hardResetGivesResetState : Obligations.HardResetGivesResetState := by
  intro s rest hp
  obtain ⟨-, hstatus, hctrl, hres0, hres1, hsrcLo, hsrcHi, htgtLo, htgtHi, hminv, hminp, hmaxv, hmaxp, hframe, hgray,
    -⟩ := registerMapReads Regs.reset
  exact ⟨_, step_hardReset hp, rfl, rfl, rfl, hstatus, hctrl, hres0, hres1, hsrcLo, hsrcHi, htgtLo, htgtHi, hminv,
    hminp, hmaxv, hmaxp, fun n => ⟨hframe n, hgray n⟩⟩

end Sys2Proof.Machine
